-- ==== Sys2Proof/Word.lean ====
section
/-! DEFINITION. The fixed-width quantities of the block (00_scope.md R5, R7, R8, R10). Every one is unsigned;
bit 0 is the least significant. -/

namespace Sys2Proof

/-- A memory byte, a general register, a timer, an 8-bit immediate `kk` (R5 `REG_WIDTH`, `TIMER_WIDTH`; R10). -/
abbrev Byte := BitVec 8

/-- A 16-bit value: an instruction word, `I`, `PC`, a stack entry (R5 `I_WIDTH`, `PC_WIDTH`; R70). -/
abbrev Word := BitVec 16

/-- One of the four 4-bit fields of an instruction word (R8, R71). -/
abbrev Nibble := BitVec 4

/-- The 12-bit address field `nnn` of an instruction word (R10, R73). -/
abbrev Addr12 := BitVec 12

/-- A general register's index, 0 to 15: every value names a register (10_state.md R21). -/
abbrev Reg := Fin 16

/-- A key's index, 0 to 15 (10_state.md R33). -/
abbrev Key := Fin 16

/-- The index of VF, the flag register (10_state.md R22). -/
abbrev vf : Reg := 15

end Sys2Proof
end

