-- ==== Sys2Proof/Syntax.lean ====
section
/-! DEFINITION. The 35 instructions, one constructor per row of spec/opcode_table.json, in the table's order
(30_encoding.md R75). A field's type holds exactly the values the encoding's field holds (R73): `x` and `y` are register
indices, `n` a row count 0 to 15, `kk` an 8-bit immediate, `nnn` a 12-bit address. -/

namespace Sys2Proof

/-- An instruction (30_encoding.md R75; the mnemonics are the `id` column). -/
inductive Instr where
  /-- NOP, 0000 (R101). -/
  | nop
  /-- CLS, 00E0 (R151). -/
  | cls
  /-- RET, 00EE (R102). -/
  | ret
  /-- JP nnn, 1nnn (R103). -/
  | jp (nnn : Addr12)
  /-- CALL nnn, 2nnn (R104). -/
  | call (nnn : Addr12)
  /-- SE Vx, kk, 3xkk (R111). -/
  | seImm (x : Reg) (kk : Byte)
  /-- SNE Vx, kk, 4xkk (R112). -/
  | sneImm (x : Reg) (kk : Byte)
  /-- SE Vx, Vy, 5xy0 (R113). -/
  | seReg (x y : Reg)
  /-- LD Vx, kk, 6xkk (R123). -/
  | ldImm (x : Reg) (kk : Byte)
  /-- ADD Vx, kk, 7xkk (R124). -/
  | addImm (x : Reg) (kk : Byte)
  /-- LD Vx, Vy, 8xy0 (R125). -/
  | ldReg (x y : Reg)
  /-- OR Vx, Vy, 8xy1 (R126). -/
  | orReg (x y : Reg)
  /-- AND Vx, Vy, 8xy2 (R127). -/
  | andReg (x y : Reg)
  /-- XOR Vx, Vy, 8xy3 (R128). -/
  | xorReg (x y : Reg)
  /-- ADD Vx, Vy, 8xy4 (R130). -/
  | addReg (x y : Reg)
  /-- SUB Vx, Vy, 8xy5 (R131). -/
  | sub (x y : Reg)
  /-- SHR Vx, 8x06 (R132). -/
  | shr (x : Reg)
  /-- SUBN Vx, Vy, 8xy7 (R133). -/
  | subn (x y : Reg)
  /-- SHL Vx, 8x0E (R134). -/
  | shl (x : Reg)
  /-- SNE Vx, Vy, 9xy0 (R114). -/
  | sneReg (x y : Reg)
  /-- LD I, nnn, Annn (R141). -/
  | ldI (nnn : Addr12)
  /-- JP V0, nnn, Bnnn (R105). -/
  | jpV0 (nnn : Addr12)
  /-- RND Vx, kk, Cxkk (R135). -/
  | rnd (x : Reg) (kk : Byte)
  /-- DRW Vx, Vy, n, Dxyn (R152). -/
  | drw (x y : Reg) (n : Fin 16)
  /-- SKP Vx, Ex9E (R161). -/
  | skp (x : Reg)
  /-- SKNP Vx, ExA1 (R162). -/
  | sknp (x : Reg)
  /-- LD Vx, DT, Fx07 (R164). -/
  | ldVxDt (x : Reg)
  /-- LD Vx, K, Fx0A (R163). -/
  | ldVxK (x : Reg)
  /-- LD DT, Vx, Fx15 (R165). -/
  | ldDtVx (x : Reg)
  /-- LD ST, Vx, Fx18 (R166). -/
  | ldStVx (x : Reg)
  /-- ADD I, Vx, Fx1E (R142). -/
  | addI (x : Reg)
  /-- LD F, Vx, Fx29 (R143). -/
  | ldF (x : Reg)
  /-- LD B, Vx, Fx33 (R144). -/
  | ldB (x : Reg)
  /-- LD [I], Vx, Fx55 (R145). -/
  | ldMemVx (x : Reg)
  /-- LD Vx, [I], Fx65 (R146). -/
  | ldVxMem (x : Reg)
deriving DecidableEq, Repr

end Sys2Proof
end

