-- ==== Sys2Proof/WellFormed.lean ====
section
/-! DEFINITION. What is well formed. A term of `Instr` carries its operands' bounds in its field types (a register index is
a `Fin 16`, an address a `BitVec 12`, and so on: 30_encoding.md R73), so every term of `Instr` is an instruction of the
hardware and there is no ill-formed one to refuse. What can be ill formed is a 16-bit WORD: the checks below are the 35
rows of the opcode map (30_encoding.md R75), and a word that no row admits is illegal (R80). The decoder of Decode.lean is
written from the class-by-class map of R77 instead, so that the two can be held against each other. -/

namespace Sys2Proof

/-- One row of the opcode map: the instruction's id, its mask and its match (30_encoding.md R75). -/
structure Row where
  mnemonic : String
  mask     : Word
  value    : Word
deriving DecidableEq, Repr

/-- A word belongs to a row when `w and mask = match` (R74). -/
def Row.admits (r : Row) (w : Word) : Bool := w &&& r.mask == r.value

/-- Rows 1 to 10 of R75. -/
def opcodeRowsLow : List Row := [
    ⟨"NOP", 0xFFFF, 0x0000⟩,
    ⟨"CLS", 0xFFFF, 0x00E0⟩,
    ⟨"RET", 0xFFFF, 0x00EE⟩,
    ⟨"JP", 0xF000, 0x1000⟩,
    ⟨"CALL", 0xF000, 0x2000⟩,
    ⟨"SE_IMM", 0xF000, 0x3000⟩,
    ⟨"SNE_IMM", 0xF000, 0x4000⟩,
    ⟨"SE_REG", 0xF00F, 0x5000⟩,
    ⟨"LD_IMM", 0xF000, 0x6000⟩,
    ⟨"ADD_IMM", 0xF000, 0x7000⟩]

/-- Rows 11 to 20 of R75. -/
def opcodeRowsAlu : List Row := [
    ⟨"LD_REG", 0xF00F, 0x8000⟩,
    ⟨"OR", 0xF00F, 0x8001⟩,
    ⟨"AND", 0xF00F, 0x8002⟩,
    ⟨"XOR", 0xF00F, 0x8003⟩,
    ⟨"ADD_REG", 0xF00F, 0x8004⟩,
    ⟨"SUB", 0xF00F, 0x8005⟩,
    ⟨"SHR", 0xF0FF, 0x8006⟩,
    ⟨"SUBN", 0xF00F, 0x8007⟩,
    ⟨"SHL", 0xF0FF, 0x800E⟩,
    ⟨"SNE_REG", 0xF00F, 0x9000⟩]

/-- Rows 21 to 35 of R75. -/
def opcodeRowsHigh : List Row := [
    ⟨"LD_I", 0xF000, 0xA000⟩,
    ⟨"JP_V0", 0xF000, 0xB000⟩,
    ⟨"RND", 0xF000, 0xC000⟩,
    ⟨"DRW", 0xF000, 0xD000⟩,
    ⟨"SKP", 0xF0FF, 0xE09E⟩,
    ⟨"SKNP", 0xF0FF, 0xE0A1⟩,
    ⟨"LD_VX_DT", 0xF0FF, 0xF007⟩,
    ⟨"LD_VX_K", 0xF0FF, 0xF00A⟩,
    ⟨"LD_DT_VX", 0xF0FF, 0xF015⟩,
    ⟨"LD_ST_VX", 0xF0FF, 0xF018⟩,
    ⟨"ADD_I", 0xF0FF, 0xF01E⟩,
    ⟨"LD_F", 0xF0FF, 0xF029⟩,
    ⟨"LD_B", 0xF0FF, 0xF033⟩,
    ⟨"LD_MEM_VX", 0xF0FF, 0xF055⟩,
    ⟨"LD_VX_MEM", 0xF0FF, 0xF065⟩]

/-- The opcode map: all 35 rows in the order of R75. -/
def opcodeTable : List Row := opcodeRowsLow ++ opcodeRowsAlu ++ opcodeRowsHigh

/-- A word is well formed, that is legal, when some row of the opcode map admits it (R74, R80). -/
def legalWord (w : Word) : Bool := opcodeTable.any (·.admits w)

/-- The place of an instruction's row in `opcodeTable`: the `#` column of R75, less 1. -/
def Instr.rowIndex : Instr → Fin 35
  | .nop => 0
  | .cls => 1
  | .ret => 2
  | .jp _ => 3
  | .call _ => 4
  | .seImm _ _ => 5
  | .sneImm _ _ => 6
  | .seReg _ _ => 7
  | .ldImm _ _ => 8
  | .addImm _ _ => 9
  | .ldReg _ _ => 10
  | .orReg _ _ => 11
  | .andReg _ _ => 12
  | .xorReg _ _ => 13
  | .addReg _ _ => 14
  | .sub _ _ => 15
  | .shr _ => 16
  | .subn _ _ => 17
  | .shl _ => 18
  | .sneReg _ _ => 19
  | .ldI _ => 20
  | .jpV0 _ => 21
  | .rnd _ _ => 22
  | .drw _ _ _ => 23
  | .skp _ => 24
  | .sknp _ => 25
  | .ldVxDt _ => 26
  | .ldVxK _ => 27
  | .ldDtVx _ => 28
  | .ldStVx _ => 29
  | .addI _ => 30
  | .ldF _ => 31
  | .ldB _ => 32
  | .ldMemVx _ => 33
  | .ldVxMem _ => 34

/-- The row of an instruction (R75). -/
def Instr.row (i : Instr) : Row := opcodeTable.get i.rowIndex

end Sys2Proof
end

