-- ==== Sys2Proof/Decode.lean ====
section
/-! DEFINITION. Decoding (30_encoding.md R70 to R83) and, after it, encoding. The decoder follows the class-by-class map of
R77; it reads nothing but the word (R74), and a word that matches no pattern is rejected by name (R80). -/

namespace Sys2Proof

/-- The word of two bytes, the first from the lower address (20_memory.md R52: big-endian). -/
def wordOfBytes (hi lo : Byte) : Word := hi ++ lo

/-- `w[15:8]`, the byte at the lower address (00_scope.md R8). -/
def highByte (w : Word) : Byte := w.extractLsb' 8 8

/-- `w[7:0]`, the byte at the higher address (00_scope.md R8). -/
def lowByte (w : Word) : Byte := w.extractLsb' 0 8

/-- `n1 = w[15:12]`, the opcode class (R71). -/
def nib1 (w : Word) : Nibble := w.extractLsb' 12 4

/-- `n2 = w[11:8]` (R71). -/
def nib2 (w : Word) : Nibble := w.extractLsb' 8 4

/-- `n3 = w[7:4]` (R71). -/
def nib3 (w : Word) : Nibble := w.extractLsb' 4 4

/-- `n4 = w[3:0]` (R71). -/
def nib4 (w : Word) : Nibble := w.extractLsb' 0 4

/-- `x = w[11:8]`, a register index (R10, R73). -/
def fieldX (w : Word) : Reg := (nib2 w).toFin

/-- `y = w[7:4]`, a register index (R10, R73). -/
def fieldY (w : Word) : Reg := (nib3 w).toFin

/-- `n = w[3:0]`, a count 0 to 15 (R10, R73). -/
def fieldN (w : Word) : Fin 16 := (nib4 w).toFin

/-- `kk = w[7:0]`, the 8-bit immediate (R10, R73). -/
def fieldKk (w : Word) : Byte := w.extractLsb' 0 8

/-- `nnn = w[11:0]`, the 12-bit address (R10, R73). -/
def fieldNnn (w : Word) : Addr12 := w.extractLsb' 0 12

/-- Class 0 of R77: three exact words, R78. -/
def decodeClass0 (w : Word) : Option Instr :=
  if w = 0x0000#16 then some .nop
  else if w = 0x00E0#16 then some .cls
  else if w = 0x00EE#16 then some .ret
  else none

/-- Class 8 of R77: `n4` tells the patterns apart; the shifts need `n3 = 0` (R79). -/
def decodeClass8 (w : Word) : Option Instr :=
  match (nib4 w).toNat with
  | 0x0 => some (.ldReg (fieldX w) (fieldY w))
  | 0x1 => some (.orReg (fieldX w) (fieldY w))
  | 0x2 => some (.andReg (fieldX w) (fieldY w))
  | 0x3 => some (.xorReg (fieldX w) (fieldY w))
  | 0x4 => some (.addReg (fieldX w) (fieldY w))
  | 0x5 => some (.sub (fieldX w) (fieldY w))
  | 0x6 => if nib3 w = 0 then some (.shr (fieldX w)) else none
  | 0x7 => some (.subn (fieldX w) (fieldY w))
  | 0xE => if nib3 w = 0 then some (.shl (fieldX w)) else none
  | _ => none

/-- Class E of R77: `kk` tells the patterns apart. -/
def decodeClassE (w : Word) : Option Instr :=
  match (fieldKk w).toNat with
  | 0x9E => some (.skp (fieldX w))
  | 0xA1 => some (.sknp (fieldX w))
  | _ => none

/-- Class F of R77: `kk` tells the patterns apart. -/
def decodeClassF (w : Word) : Option Instr :=
  match (fieldKk w).toNat with
  | 0x07 => some (.ldVxDt (fieldX w))
  | 0x0A => some (.ldVxK (fieldX w))
  | 0x15 => some (.ldDtVx (fieldX w))
  | 0x18 => some (.ldStVx (fieldX w))
  | 0x1E => some (.addI (fieldX w))
  | 0x29 => some (.ldF (fieldX w))
  | 0x33 => some (.ldB (fieldX w))
  | 0x55 => some (.ldMemVx (fieldX w))
  | 0x65 => some (.ldVxMem (fieldX w))
  | _ => none

/-- The instruction a word encodes, or `none` for an illegal word (R74, R77, R80): a case on the class `n1`. -/
def decodeWord (w : Word) : Option Instr :=
  match (nib1 w).toNat with
  | 0x0 => decodeClass0 w
  | 0x1 => some (.jp (fieldNnn w))
  | 0x2 => some (.call (fieldNnn w))
  | 0x3 => some (.seImm (fieldX w) (fieldKk w))
  | 0x4 => some (.sneImm (fieldX w) (fieldKk w))
  | 0x5 => if nib4 w = 0 then some (.seReg (fieldX w) (fieldY w)) else none
  | 0x6 => some (.ldImm (fieldX w) (fieldKk w))
  | 0x7 => some (.addImm (fieldX w) (fieldKk w))
  | 0x8 => decodeClass8 w
  | 0x9 => if nib4 w = 0 then some (.sneReg (fieldX w) (fieldY w)) else none
  | 0xA => some (.ldI (fieldNnn w))
  | 0xB => some (.jpV0 (fieldNnn w))
  | 0xC => some (.rnd (fieldX w) (fieldKk w))
  | 0xD => some (.drw (fieldX w) (fieldY w) (fieldN w))
  | 0xE => decodeClassE w
  | 0xF => decodeClassF w
  | _ => none

/-- Why bytes are not an instruction. -/
inductive Reject where
  /-- Fewer than the two bytes an instruction has (R70). -/
  | tooShort
  /-- The word matches no row of the opcode map (R80). -/
  | noPattern (w : Word)
deriving DecidableEq, Repr

/-- Decoding of a byte sequence: the first instruction and the bytes after it, or a rejection by name. Total. -/
def decode : List Byte → Except Reject (Instr × List Byte)
  | hi :: lo :: rest =>
    match decodeWord (wordOfBytes hi lo) with
    | some i => .ok (i, rest)
    | none => .error (.noPattern (wordOfBytes hi lo))
  | _ => .error .tooShort

/-- The two bytes of a table word in the order the hardware stores them: high byte first (20_memory.md R52). Bits of `w`
from `nbits` up count as 0. -/
def tableBytes (nbits w : Nat) : List Byte :=
  [highByte (BitVec.ofNat 16 (w % 2 ^ nbits)), lowByte (BitVec.ofNat 16 (w % 2 ^ nbits))]

/-- What the decoder reads from an instruction whose bits are `w`, numbered as spec/opcode_table.json numbers them. -/
def decodeTableWord (nbits w : Nat) : Option Instr :=
  match decode (tableBytes nbits w) with
  | .ok (i, _) => some i
  | .error _ => none

/-! ### Encoding, by the formats of R72 -/

/-- Format A: opcode class, `nnn`. -/
def encodeA (op : Nibble) (nnn : Addr12) : Word := op ++ nnn

/-- Format I: opcode class, `x`, `kk`. -/
def encodeI (op : Nibble) (x : Reg) (kk : Byte) : Word := op ++ BitVec.ofFin (w := 4) x ++ kk

/-- Format R: opcode class, `x`, `y`, fixed low nibble. -/
def encodeR (op : Nibble) (x y : Reg) (low : Nibble) : Word :=
  op ++ BitVec.ofFin (w := 4) x ++ BitVec.ofFin (w := 4) y ++ low

/-- Format S: opcode class, `x`, fixed low byte. -/
def encodeS (op : Nibble) (x : Reg) (low : Byte) : Word := op ++ BitVec.ofFin (w := 4) x ++ low

/-- Format D: opcode class, `x`, `y`, `n`. -/
def encodeD (op : Nibble) (x y : Reg) (n : Fin 16) : Word :=
  op ++ BitVec.ofFin (w := 4) x ++ BitVec.ofFin (w := 4) y ++ BitVec.ofFin (w := 4) n

/-- The word of an instruction (R72, R75). -/
def encode : Instr → Word
  | .nop => 0x0000
  | .cls => 0x00E0
  | .ret => 0x00EE
  | .jp nnn => encodeA 0x1 nnn
  | .call nnn => encodeA 0x2 nnn
  | .seImm x kk => encodeI 0x3 x kk
  | .sneImm x kk => encodeI 0x4 x kk
  | .seReg x y => encodeR 0x5 x y 0x0
  | .ldImm x kk => encodeI 0x6 x kk
  | .addImm x kk => encodeI 0x7 x kk
  | .ldReg x y => encodeR 0x8 x y 0x0
  | .orReg x y => encodeR 0x8 x y 0x1
  | .andReg x y => encodeR 0x8 x y 0x2
  | .xorReg x y => encodeR 0x8 x y 0x3
  | .addReg x y => encodeR 0x8 x y 0x4
  | .sub x y => encodeR 0x8 x y 0x5
  | .shr x => encodeS 0x8 x 0x06
  | .subn x y => encodeR 0x8 x y 0x7
  | .shl x => encodeS 0x8 x 0x0E
  | .sneReg x y => encodeR 0x9 x y 0x0
  | .ldI nnn => encodeA 0xA nnn
  | .jpV0 nnn => encodeA 0xB nnn
  | .rnd x kk => encodeI 0xC x kk
  | .drw x y n => encodeD 0xD x y n
  | .skp x => encodeS 0xE x 0x9E
  | .sknp x => encodeS 0xE x 0xA1
  | .ldVxDt x => encodeS 0xF x 0x07
  | .ldVxK x => encodeS 0xF x 0x0A
  | .ldDtVx x => encodeS 0xF x 0x15
  | .ldStVx x => encodeS 0xF x 0x18
  | .addI x => encodeS 0xF x 0x1E
  | .ldF x => encodeS 0xF x 0x29
  | .ldB x => encodeS 0xF x 0x33
  | .ldMemVx x => encodeS 0xF x 0x55
  | .ldVxMem x => encodeS 0xF x 0x65

/-- The two bytes of an instruction as stored, high byte first. -/
def encodeBytes (i : Instr) : List Byte := [highByte (encode i), lowByte (encode i)]

end Sys2Proof
end

