-- ==== Sys2Proof/Config.lean ====
section
/-! DEFINITION. The fixed parameters of the block (00_scope.md R5) and its open ones (R6), the latter as constants with
no body, so that nothing can be proved of their values. `TIMER_HZ` and `STEPS_PER_TICK` (R6, D27) have no constant here:
no rule reads them. -/

namespace Sys2Proof.Config

/-- `MEM_SIZE`: bytes of memory, addresses 0 to 4095 (R5, 20_memory.md R50). -/
abbrev memSize : Nat := 4096

/-- `FONT_BASE`: address of the first font byte (R5). -/
abbrev fontBase : Nat := 0

/-- `FONT_SIZE`: font bytes, addresses 0 to 79 (R5, 20_memory.md R51). -/
abbrev fontSize : Nat := 80

/-- `GLYPH_SIZE`: bytes of a glyph (R5). -/
abbrev glyphSize : Nat := 5

/-- `PROG_BASE`: address of the first program byte and the reset value of `PC` (R5). -/
abbrev progBase : Nat := 512

/-- `PROG_MAX`: the greatest program length Load admits (R5, 48_host_interface.md R175). -/
abbrev progMax : Nat := 3584

/-- `INSTR_BYTES`: bytes of every instruction (R5, 30_encoding.md R70). -/
abbrev instrBytes : Nat := 2

/-- `DISP_W`: display columns (R5). -/
abbrev dispW : Nat := 64

/-- `DISP_H`: display rows (R5). -/
abbrev dispH : Nat := 32

/-- `STACK_ENTRIES`: call stack entries (R5). -/
abbrev stackEntries : Nat := 16

/-- `FONT`: byte `a` of the font table for `a` in 0 to 79 (R6, 20_memory.md R56). An OPEN parameter of the spec (D2),
so a constant with no body; log 3. -/
opaque font : Nat → Byte

/-- The random byte the `n`-th draw gives (00_scope.md R6 `rnd`, 42_alu.md R135). A free value under no law (D3); log 4. -/
opaque rnd : Nat → Byte

/-- The `n`-th unspecified value of type `α`: what 60_exceptions.md R199 leaves of a faulted machine's state; log 2. -/
opaque unspecified (α : Type) [Inhabited α] : Nat → α

end Sys2Proof.Config
end

