-- ==== Sys2Proof/Machine/State.lean ====
section
/-! DEFINITION. The state of the block (10_state.md R20), the fault record (60_exceptions.md R190), the refusals, and the
state after reset (10_state.md R40). State is plain data. -/

namespace Sys2Proof.Machine

/-- Memory `M` (10_state.md R35) as a list of (address, byte) pairs in one canonical form: addresses strictly rising and
below 4096, no entry equal to what an unlisted address reads as (`Memory.unlisted` and `Memory.wf`, Machine/Memory.lean). -/
abbrev Memory := List Host.Cell

/-- The display bitmap `D`, row-major (10_state.md R32): bit `px` of row `py` is pixel (`px`, `py`), that is
`D[64·py + px]`; 1 = on. -/
abbrev Display := Vector (BitVec 64) 32

/-- A fault record `(cause, info)` (60_exceptions.md R190). A faulting Step LATCHES it in `State.fault` and answers a next
state (R199; log 1): no step of this model answers `Host.Outcome.fault`. Each is safe: the hardware's own fault. -/
inductive Fault where
  /-- Code 1. Raised by the fetch of any Step with `PC > 4094`; info: the value of `PC` (R192). Safe. -/
  | fetchOutOfRange (pc : Word)
  /-- Code 2. Raised by the decode of any Step whose word matches no row; info: the word and its address (R191). Safe. -/
  | decodeFailure (w p : Word)
  /-- Code 3. Raised by CALL with `SP = 16` (R194). Safe. -/
  | stackOverflow
  /-- Code 4. Raised by RET with `SP = 0` (R195). Safe. -/
  | stackUnderflow
  /-- Code 5. Raised by DRW, LD_B, LD_MEM_VX, LD_VX_MEM; info: the least address of the access that is 4096 or above
  (R193). Safe. -/
  | memOutOfRange (addr : Nat)
  /-- Code 6. Raised by SKP and SKNP with `V[x] > 15`; info: the value of `V[x]` (R196). Safe. -/
  | keyIndexOutOfRange (k : Byte)
deriving DecidableEq, Repr

/-- The fault's numeric code (R190). -/
def Fault.code : Fault → Nat
  | .fetchOutOfRange _ => 1
  | .decodeFailure _ _ => 2
  | .stackOverflow => 3
  | .stackUnderflow => 4
  | .memOutOfRange _ => 5
  | .keyIndexOutOfRange _ => 6

/-- Operations to which the spec gives no meaning (00_scope.md R12 "Refused"). No instruction is refused. -/
inductive Refusal where
  /-- An instruction with no meaning yet, by its mnemonic. Raised by nothing: every instruction has its meaning. Safe. -/
  | notModelled (mnemonic : String)
  /-- KeySet with an index above 15 (48_host_interface.md R174). Raised by `keySet`. Safe. -/
  | keySetIndex (k : Nat)
  /-- Load of more than 3584 bytes (48_host_interface.md R175). Raised by `load`. Safe. -/
  | loadTooLong (len : Nat)
  /-- Load on a faulted machine (48_host_interface.md R181). Raised by `load`. Safe. -/
  | loadFaulted
  /-- Load after a Step (48_host_interface.md R175). Raised by `Session.perform`. Safe. -/
  | loadAfterStep
deriving DecidableEq, Repr

/-- The whole state of the block (10_state.md R20 and R34), and one field of the model's own, `draws`. -/
structure State where
  /-- `V[0]`…`V[15]`, the general registers; `V[15]` is VF (R21, R22). -/
  v       : Vector Byte 16
  /-- `I`, the address register (R24). -/
  i       : Word
  /-- `PC`, the program counter (R25). -/
  pc      : Word
  /-- `S[0]`…`S[15]`, the call stack (R28). -/
  stack   : Vector Word 16
  /-- `SP`, the number of return addresses held, 0 to 16 (R29). -/
  sp      : Fin 17
  /-- `DT`, the delay timer (R30). -/
  dt      : Byte
  /-- `ST`, the sound timer (R31). -/
  st      : Byte
  /-- `D`, the display bitmap (R32). -/
  display : Display
  /-- `K[0]`…`K[15]`, the key latch: bit `i` is `K[i]`, 1 = pressed (R33). -/
  keys    : BitVec 16
  /-- `FAULT`, the fault latch (R34). -/
  fault   : Option Fault
  /-- `M`, the memory (R35). -/
  mem     : Memory
  /-- THE MODEL'S OWN: how many free values have been used; the index of the next one (log 4). -/
  draws   : Nat
deriving DecidableEq, Repr, Inhabited

/-- The state after Reset and after power-on (10_state.md R40, 70_reset_and_hazards.md R220, R221): all zero but `PC`;
memory has nothing listed, so 0 to 79 read as `FONT` and 80 to 4095 as 0. `draws` is the model's own (log 4). -/
def State.reset : State where
  v       := Vector.replicate 16 0
  i       := 0
  pc      := BitVec.ofNat 16 Config.progBase
  stack   := Vector.replicate 16 0
  sp      := 0
  dt      := 0
  st      := 0
  display := Vector.replicate 32 0
  keys    := 0
  fault   := none
  mem     := []
  draws   := 0

end Sys2Proof.Machine
end

