-- ==== Sys2Proof/Machine/Memory.lean ====
section
/-! DEFINITION. The address space `M` (20_memory.md): what an unlisted address reads as, one-byte read and write, and the
wider accesses built from them in one place. The range check of an access (R58, R59) stands in Machine/Operands.lean; the
functions here are `M[a]` of 00_scope.md R9, used only where the address is known to be below 4096 (log 9). -/

namespace Sys2Proof.Machine

/-- What an address nothing has written since Reset reads as: the font byte below 80, else 0 (10_state.md R35, R40). -/
def Memory.unlisted (a : Nat) : Byte :=
  if Config.fontBase ≤ a ∧ a < Config.fontBase + Config.fontSize then Config.font (a - Config.fontBase) else 0

/-- The canonical form: strictly rising addresses, all below 4096, no entry equal to what an unlisted address reads as. -/
abbrev Memory.wf (m : Memory) : Prop :=
  m.Pairwise (fun c d => c.1 < d.1) ∧ ∀ c ∈ m, c.1 < Config.memSize ∧ c.2 ≠ Memory.unlisted c.1

/-- `M[a]`: the byte last written to `a`, or the reset value (R62 (c)). -/
def Memory.get : Memory → Nat → Byte
  | [], a => Memory.unlisted a
  | c :: m, a => if c.1 = a then c.2 else Memory.get m a

/-- A cell put into its place among rising addresses. -/
def Memory.insertCell (a : Nat) (b : Byte) : Memory → Memory
  | [] => [(a, b)]
  | c :: m => if a < c.1 then (a, b) :: c :: m else c :: Memory.insertCell a b m

/-- `M[a] <- b`. Keeps the canonical form: a byte equal to what the unlisted address reads as is not listed. An address
outside the space changes nothing (every caller has checked the range: log 9). -/
def Memory.put (m : Memory) (a : Nat) (b : Byte) : Memory :=
  if a < Config.memSize then
    if b = Memory.unlisted a then m.filter (fun c => c.1 ≠ a)
    else Memory.insertCell a b (m.filter (fun c => c.1 ≠ a))
  else m

/-- Bytes written one at a time at ascending addresses from `a` (R53, R55, 48_host_interface.md R175). -/
def Memory.putBytes (m : Memory) (a : Nat) : List Byte → Memory
  | [] => m
  | b :: bs => Memory.putBytes (m.put a b) (a + 1) bs

/-- `Fetch16(a) = M[a] ++ M[a+1]`, big-endian (R52, 00_scope.md R9). -/
def Memory.fetch16 (m : Memory) (a : Nat) : Word := wordOfBytes (m.get a) (m.get (a + 1))

/-- Any list of cells brought to the canonical form: its in-range cells written one after another. -/
def Memory.canonical (m : Memory) : Memory := m.foldl (fun acc c => Memory.put acc c.1 c.2) []

end Sys2Proof.Machine
end

