-- ==== Sys2Proof/Machine/Ops.lean ====
section
/-! DEFINITION. The named operations every meaning is written with: register reads and writes, the call stack, the program
counter, taking a fault, the free draw, and the fetch of the next instruction. -/

namespace Sys2Proof.Machine

/-! ### Registers -/

/-- The read `V[k]` (00_scope.md R9, 10_state.md R21). -/
def State.getV (s : State) (k : Reg) : Byte := s.v[k]

/-- The write `V[k] <- b` (00_scope.md R9, 10_state.md R21). -/
def State.setV (s : State) (k : Reg) (b : Byte) : State := { s with v := s.v.set k.val b k.isLt }

/-- `I <- w` (10_state.md R24). -/
def State.setI (s : State) (w : Word) : State := { s with i := w }

/-- `PC <- w` (10_state.md R25, R27: no check, no alignment). -/
def State.setPc (s : State) (w : Word) : State := { s with pc := w }

/-- `DT <- b` (10_state.md R30). -/
def State.setDt (s : State) (b : Byte) : State := { s with dt := b }

/-- `ST <- b` (10_state.md R31). -/
def State.setSt (s : State) (b : Byte) : State := { s with st := b }

/-- `D <- d` (10_state.md R32). -/
def State.setDisplay (s : State) (d : Display) : State := { s with display := d }

/-- `K <- k`; only the host operations use it (10_state.md R33). -/
def State.setKeys (s : State) (k : BitVec 16) : State := { s with keys := k }

/-- `M <- m` (10_state.md R35). -/
def State.setMem (s : State) (m : Memory) : State := { s with mem := m }

/-- The model's own: one free value has been used (log 4). -/
def State.advanceDraws (s : State) : State := { s with draws := s.draws + 1 }

/-! ### The program counter -/

/-- The fetch's advance, "advances PC by 2" (48_host_interface.md R171, 10_state.md R25). -/
def State.advancePc (s : State) : State := s.setPc (s.pc + BitVec.ofNat 16 Config.instrBytes)

/-- The rewind of the key wait, "undoing the fetch's advance" (45_keypad_timers.md R163). -/
def State.rewindPc (s : State) : State := s.setPc (s.pc - BitVec.ofNat 16 Config.instrBytes)

/-- The skip: `PC <- PC + 2` once more when the condition holds (41_skips.md R110). -/
def State.skipIf (s : State) (c : Bool) : State := if c then s.advancePc else s

/-! ### The call stack -/

/-- Push (10_state.md R29): `none` when the stack holds 16 entries. -/
def State.push (s : State) (w : Word) : Option State :=
  if h : s.sp.val < Config.stackEntries then
    some { s with stack := s.stack.set s.sp.val w h, sp := ⟨s.sp.val + 1, Nat.succ_lt_succ h⟩ }
  else none

/-- Pop (10_state.md R29): `none` when the stack holds none. The popped entry keeps its value (40_control_flow.md R102). -/
def State.pop (s : State) : Option (Word × State) :=
  match s.sp with
  | ⟨0, _⟩ => none
  | ⟨n + 1, h⟩ =>
    some (s.stack[n]'(Nat.lt_of_succ_lt_succ h), { s with sp := ⟨n, Nat.lt_of_succ_lt h⟩ })

/-! ### Faults -/

/-- Fault entry (60_exceptions.md R199): `FAULT <- (cause, info)`. All other state after a faulting Step is not specified,
so it is a free value, which may depend on the fault and on the state before; only the canonical form of the memory list
is kept (log 2). -/
def State.takeFault (s : State) (f : Fault) : State :=
  let u := Config.unspecified (Fault → State → State) s.draws f s
  { u with mem := Memory.canonical u.mem, fault := some f, draws := s.draws + 1 }

/-- `raise f` (00_scope.md R9): the Step ends in the faulted state; the Step itself answers a next state (log 1). -/
def raise (f : Fault) (s : State) : Host.Outcome State Fault Refusal := .next (s.takeFault f)

/-! ### Fetch and decode -/

/-- The fetch of a Step (48_host_interface.md R171, 60_exceptions.md R192): the word at `PC`, or the fault when either of
its bytes lies at 4096 or above. -/
def fetchWord (s : State) : Except Fault Word :=
  if s.pc.toNat + Config.instrBytes ≤ Config.memSize then .ok (s.mem.fetch16 s.pc.toNat)
  else .error (.fetchOutOfRange s.pc)

/-- Fetch and decode (48_host_interface.md R171, 60_exceptions.md R191, R198): the instruction at `PC`, or the fault. -/
def fetchDecode (s : State) : Except Fault Instr :=
  match fetchWord s with
  | .error f => .error f
  | .ok w =>
    match decodeWord w with
    | some i => .ok i
    | none => .error (.decodeFailure w s.pc)

/-- Where `withFetchWord` stores its word: at `PC`, or at 512 when no fetch is possible at `PC`. -/
def fetchAddress (s : State) : Word :=
  if s.pc.toNat + Config.instrBytes ≤ Config.memSize then s.pc else BitVec.ofNat 16 Config.progBase

end Sys2Proof.Machine
end

