-- ==== Sys2Proof/Machine/Operands.lean ====
section
/-! DEFINITION. Operand forms: immediates and addresses (30_encoding.md R73), the one addressing mode `I + k`
(43_index_memory.md R140) with its range check (20_memory.md R58, R59), register ranges `0..x`, key indices, glyph
addresses, decimal digits and pixel coordinates. -/

namespace Sys2Proof.Machine

/-- `zext_16(nnn)` (30_encoding.md R73). -/
def addrWord (nnn : Addr12) : Word := nnn.setWidth 16

/-- `zext_16(V[x])` (00_scope.md R9). -/
def byteWord (b : Byte) : Word := b.setWidth 16

/-- `nnn + V[0]` at the width of `PC`; at most 0x10FE, so nothing is cut off (40_control_flow.md R105, D23). -/
def jumpOffset (nnn : Addr12) (v0 : Byte) : Word := addrWord nnn + byteWord v0

/-- The glyph address `5 · V[x]`, all 8 bits of `V[x]` used (43_index_memory.md R143, D23). -/
def glyphAddress (b : Byte) : Word := BitVec.ofNat 16 (Config.fontBase + Config.glyphSize * b.toNat)

/-- The effective address `I + k`, a natural number that never wraps (20_memory.md R59, 43_index_memory.md R140). -/
def State.ea (s : State) (k : Nat) : Nat := s.i.toNat + k

/-- The range check of an access of `count` bytes at `I`, judged on the whole range: it fails iff `count ≥ 1` and
`I + count > 4096` (20_memory.md R59, 60_exceptions.md R193; for `count = 0`: log 10). -/
def State.rangeBad (s : State) (count : Nat) : Bool :=
  decide (1 ≤ count ∧ Config.memSize < s.i.toNat + count)

/-- `after` when the `count` bytes at `I` are in range; else `MemOutOfRange` with the least address of the access that is
4096 or above, `max(I, 4096)` (60_exceptions.md R193). -/
def accessing (count : Nat) (s after : State) : Host.Outcome State Fault Refusal :=
  if s.rangeBad count then raise (.memOutOfRange (max s.i.toNat Config.memSize)) s else .next after

/-- The sixteen indices of registers, and of keys, in ascending order. -/
def indices16 : List (Fin 16) := [0, 1, 2, 3, 4, 5, 6, 7, 8, 9, 10, 11, 12, 13, 14, 15]

/-- `for k in 0..x`: the indices `0, 1, …, x` (00_scope.md R9, 43_index_memory.md R145). -/
def upTo (x : Fin 16) : List (Fin 16) := indices16.filter (fun k => decide (k.val ≤ x.val))

/-- The bytes `V[0], …, V[x]` (43_index_memory.md R145). -/
def State.registersUpTo (s : State) (x : Reg) : List Byte := (upTo x).map s.getV

/-- `for k in 0..x: V[k] <- M[I + k]` (43_index_memory.md R146). -/
def State.loadRegisters (s : State) (x : Reg) : State :=
  (upTo x).foldl (fun t k => t.setV k (s.mem.get (s.ea k.val))) s

/-- The three decimal digits of a byte, hundreds first (43_index_memory.md R144). -/
def bcdDigits (b : Byte) : List Byte :=
  [BitVec.ofNat 8 (b.toNat / 100), BitVec.ofNat 8 (b.toNat / 10 % 10), BitVec.ofNat 8 (b.toNat % 10)]

/-- The key a register names, or `none` when its value is above 15 (45_keypad_timers.md R161, R162). -/
def keyOf (b : Byte) : Option Key := if h : b.toNat < 16 then some ⟨b.toNat, h⟩ else none

/-- `K[k]` (10_state.md R33). -/
def State.keyDown (s : State) (k : Key) : Bool := s.keys.getLsbD k.val

/-- The least pressed key, or `none` (45_keypad_timers.md R163: "scans key indices 0–15 in ascending order"). -/
def State.firstKey (s : State) : Option Key := indices16.find? s.keyDown

/-- A key's index as a register value, 0 to 15 (45_keypad_timers.md R163). -/
def keyByte (k : Key) : Byte := BitVec.ofNat 8 k.val

/-- `n mod 64`, a display column (44_display.md R153). -/
def wrapColumn (n : Nat) : Fin 64 := ⟨n % 64, Nat.mod_lt _ (by decide)⟩

/-- `n mod 32`, a display row (44_display.md R153). -/
def wrapRow (n : Nat) : Fin 32 := ⟨n % 32, Nat.mod_lt _ (by decide)⟩

/-- `D[64·py + px]` (10_state.md R32). -/
def Display.pixel (d : Display) (px : Fin 64) (py : Fin 32) : Bool := d[py].getLsbD px.val

/-- `D[i]`, 0 ≤ i ≤ 2047, in the order DisplayRead returns the bits (48_host_interface.md R177, D26). -/
def Display.bit (d : Display) (i : Fin 2048) : Bool :=
  d.pixel (wrapColumn i.val) ⟨i.val / 64, by omega⟩

/-- `D[64·py + px] <- D[64·py + px] xor 1` (44_display.md R152). -/
def Display.toggle (d : Display) (px : Fin 64) (py : Fin 32) : Display :=
  d.set py.val (d[py] ^^^ BitVec.twoPow 64 px.val) py.isLt

end Sys2Proof.Machine
end

