-- ==== Sys2Proof/Machine/Flags.lean ====
section
/-! DEFINITION. Every flag computation of the spec, and the two orders in which a result and its flag are written
(10_state.md R22, R23; 42_alu.md R121, R122). VF is `V[15]`; a flag write stores 0 or 1. -/

namespace Sys2Proof.Machine

/-- A flag as the byte VF receives, 0 or 1 (10_state.md R22). -/
def flagByte (b : Bool) : Byte := if b then 1 else 0

/-- The carry out of bit 7: 1 exactly when `a + b > 255` (42_alu.md R122 (b), R130). -/
def carryOut (a b : Byte) : Bool := decide (255 < a.toNat + b.toNat)

/-- The inverse of the borrow of `a − b`: 1 exactly when `a ≥ b` (42_alu.md R122 (c), R131, R133). -/
def notBorrow (a b : Byte) : Bool := decide (b.toNat ≤ a.toNat)

/-- The bit a right shift pushes out, bit 0 (42_alu.md R132). -/
def shiftOutRight (a : Byte) : Bool := a.getLsbD 0

/-- The bit a left shift pushes out, bit 7 (42_alu.md R134). -/
def shiftOutLeft (a : Byte) : Bool := a.getLsbD 7

/-- The flag write `V[15] <- b`. -/
def State.setFlag (s : State) (b : Bool) : State := s.setV vf (flagByte b)

/-- Result, then flag: the order of ADD_REG, SUB and SUBN, so with `x = 15` the flag stays (R121, D11). -/
def State.resultThenFlag (s : State) (x : Reg) (r : Byte) (b : Bool) : State := (s.setV x r).setFlag b

/-- Flag, then the result computed from the register as it then stands: the order of SHR and SHL (R121, D11). -/
def State.flagThenResult (s : State) (x : Reg) (b : Bool) (f : Byte → Byte) : State :=
  (s.setFlag b).setV x (f ((s.setFlag b).getV x))

end Sys2Proof.Machine
end

