-- ==== Sys2Proof/Machine/Alu.lean ====
section
/-! DEFINITION. Register loads, arithmetic, logic, shifts and random (42_alu.md R120 to R135). -/

namespace Sys2Proof.Machine

/-- LD Vx, kk (R123). -/
def execLdImm (x : Reg) (kk : Byte) (s : State) : Host.Outcome State Fault Refusal := .next (s.setV x kk)

/-- ADD Vx, kk: wraps at 256, no flag (R124). -/
def execAddImm (x : Reg) (kk : Byte) (s : State) : Host.Outcome State Fault Refusal :=
  .next (s.setV x (s.getV x + kk))

/-- LD Vx, Vy (R125). -/
def execLdReg (x y : Reg) (s : State) : Host.Outcome State Fault Refusal := .next (s.setV x (s.getV y))

/-- OR Vx, Vy: no flag (R126). -/
def execOr (x y : Reg) (s : State) : Host.Outcome State Fault Refusal := .next (s.setV x (s.getV x ||| s.getV y))

/-- AND Vx, Vy: no flag (R127). -/
def execAnd (x y : Reg) (s : State) : Host.Outcome State Fault Refusal := .next (s.setV x (s.getV x &&& s.getV y))

/-- XOR Vx, Vy: no flag (R128). -/
def execXor (x y : Reg) (s : State) : Host.Outcome State Fault Refusal := .next (s.setV x (s.getV x ^^^ s.getV y))

/-- ADD Vx, Vy: the sum, then the carry (R130). -/
def execAddReg (x y : Reg) (s : State) : Host.Outcome State Fault Refusal :=
  .next (s.resultThenFlag x (s.getV x + s.getV y) (carryOut (s.getV x) (s.getV y)))

/-- SUB Vx, Vy: `V[x] − V[y]`, then not-borrow (R131). -/
def execSub (x y : Reg) (s : State) : Host.Outcome State Fault Refusal :=
  .next (s.resultThenFlag x (s.getV x - s.getV y) (notBorrow (s.getV x) (s.getV y)))

/-- SUBN Vx, Vy: `V[y] − V[x]`, then not-borrow (R133). -/
def execSubn (x y : Reg) (s : State) : Host.Outcome State Fault Refusal :=
  .next (s.resultThenFlag x (s.getV y - s.getV x) (notBorrow (s.getV y) (s.getV x)))

/-- SHR Vx: bit 0 to VF, then `V[x] >> 1` of the register as it then stands (R132). -/
def execShr (x : Reg) (s : State) : Host.Outcome State Fault Refusal :=
  .next (s.flagThenResult x (shiftOutRight (s.getV x)) (fun b => b >>> 1))

/-- SHL Vx: bit 7 to VF, then `V[x] << 1` of the register as it then stands (R134). -/
def execShl (x : Reg) (s : State) : Host.Outcome State Fault Refusal :=
  .next (s.flagThenResult x (shiftOutLeft (s.getV x)) (fun b => b <<< 1))

/-- RND Vx, kk with the draw given: `V[x] <- rnd and kk` (R135). -/
def rndWith (rnd : Byte) (x : Reg) (kk : Byte) (s : State) : State := s.setV x (rnd &&& kk)

/-- RND Vx, kk: the draw is a fresh free value (R135, D3; log 4). -/
def execRnd (x : Reg) (kk : Byte) (s : State) : Host.Outcome State Fault Refusal :=
  .next (rndWith (Config.rnd s.draws) x kk s.advanceDraws)

end Sys2Proof.Machine
end

