-- ==== Sys2Proof/Machine/ControlFlow.lean ====
section
/-! DEFINITION. No-op, jumps, call and return (40_control_flow.md). On entry `PC` is `p + 2` (R100). -/

namespace Sys2Proof.Machine

/-- NOP: nothing (R101). -/
def execNop (s : State) : Host.Outcome State Fault Refusal := .next s

/-- RET: pop into `PC`, or `StackUnderflow` with an empty stack (R102). -/
def execRet (s : State) : Host.Outcome State Fault Refusal :=
  match s.pop with
  | some (w, t) => .next (t.setPc w)
  | none => raise .stackUnderflow s

/-- JP: `PC <- nnn` (R103). -/
def execJp (nnn : Addr12) (s : State) : Host.Outcome State Fault Refusal := .next (s.setPc (addrWord nnn))

/-- CALL: push `PC`, then `PC <- nnn`; `StackOverflow` with a full stack (R104). -/
def execCall (nnn : Addr12) (s : State) : Host.Outcome State Fault Refusal :=
  match s.push s.pc with
  | some t => .next (t.setPc (addrWord nnn))
  | none => raise .stackOverflow s

/-- JP V0: `PC <- nnn + V[0]` (R105). -/
def execJpV0 (nnn : Addr12) (s : State) : Host.Outcome State Fault Refusal :=
  .next (s.setPc (jumpOffset nnn (s.getV 0)))

end Sys2Proof.Machine
end

