-- ==== Sys2Proof/Machine/Display.lean ====
section
/-! DEFINITION. Display clear, sprite draw and collision detection (44_display.md R150 to R156). -/

namespace Sys2Proof.Machine

/-- The bitmap with every pixel off (R151). -/
def Display.clear : Display := Vector.replicate 32 0

/-- What the draw loop carries: the bitmap, and whether a pixel has gone from on to off (R152 `D`, `coll`). -/
abbrev Canvas := Display × Bool

/-- One sprite bit that is 1: note a collision if the pixel is on, then toggle it (R152, the body of the inner `if`). -/
def Canvas.plot (c : Canvas) (px : Fin 64) (py : Fin 32) : Canvas :=
  (c.1.toggle px py, c.2 || c.1.pixel px py)

/-- One sprite row: bit 7 is column 0; coordinates wrap per pixel (R152, R153). -/
def Canvas.drawRow (c : Canvas) (vx vy row : Nat) (b : Byte) : Canvas :=
  (List.range 8).foldl
    (fun c col => if b.getLsbD (7 - col) then c.plot (wrapColumn (vx + col)) (wrapRow (vy + row)) else c) c

/-- The sprite's rows `0..n−1`, row `r` read at `base + r` (R152, R156). -/
def Canvas.drawSprite (c : Canvas) (m : Memory) (base vx vy n : Nat) : Canvas :=
  (List.range n).foldl (fun c row => c.drawRow vx vy row (m.get (base + row))) c

/-- The bitmap and the collision flag of `DRW Vx, Vy, n`; `V[x]` and `V[y]` are read before VF is written (R152, D12). -/
def State.sprite (s : State) (x y : Reg) (n : Fin 16) : Canvas :=
  Canvas.drawSprite (s.display, false) s.mem (s.ea 0) (s.getV x).toNat (s.getV y).toNat n.val

/-- CLS (R151). -/
def execCls (s : State) : Host.Outcome State Fault Refusal := .next (s.setDisplay Display.clear)

/-- DRW Vx, Vy, n: draw, then VF <- collision, once and last (R152). -/
def execDrw (x y : Reg) (n : Fin 16) (s : State) : Host.Outcome State Fault Refusal :=
  accessing n.val s ((s.setDisplay (s.sprite x y n).1).setFlag (s.sprite x y n).2)

end Sys2Proof.Machine
end

