-- ==== Sys2Proof/Machine/IndexMemory.lean ====
section
/-! DEFINITION. The address register, BCD, register store and load (43_index_memory.md R140 to R147). `I` is unchanged by
the three memory instructions (R140, D14). -/

namespace Sys2Proof.Machine

/-- LD I, nnn (R141). -/
def execLdI (nnn : Addr12) (s : State) : Host.Outcome State Fault Refusal := .next (s.setI (addrWord nnn))

/-- ADD I, Vx: wraps at 65536, no flag (R142). -/
def execAddI (x : Reg) (s : State) : Host.Outcome State Fault Refusal := .next (s.setI (s.i + byteWord (s.getV x)))

/-- LD F, Vx: `I <- 5 · V[x]` (R143). -/
def execLdF (x : Reg) (s : State) : Host.Outcome State Fault Refusal := .next (s.setI (glyphAddress (s.getV x)))

/-- LD B, Vx: three decimal digits at `I`, `I + 1`, `I + 2` (R144). -/
def execLdB (x : Reg) (s : State) : Host.Outcome State Fault Refusal :=
  accessing 3 s (s.setMem (s.mem.putBytes (s.ea 0) (bcdDigits (s.getV x))))

/-- LD [I], Vx: `V[0]`…`V[x]` at `I` to `I + x` (R145). -/
def execLdMemVx (x : Reg) (s : State) : Host.Outcome State Fault Refusal :=
  accessing (x.val + 1) s (s.setMem (s.mem.putBytes (s.ea 0) (s.registersUpTo x)))

/-- LD Vx, [I]: `V[0]`…`V[x]` from `I` to `I + x` (R146). -/
def execLdVxMem (x : Reg) (s : State) : Host.Outcome State Fault Refusal :=
  accessing (x.val + 1) s (s.loadRegisters x)

end Sys2Proof.Machine
end

