-- ==== Sys2Proof/Machine/KeypadTimers.lean ====
section
/-! DEFINITION. Keypad and timer instructions (45_keypad_timers.md R160 to R166). -/

namespace Sys2Proof.Machine

/-- SKP Vx: skip if key `V[x]` is pressed; `KeyIndexOutOfRange` when `V[x] > 15` (R161). -/
def execSkp (x : Reg) (s : State) : Host.Outcome State Fault Refusal :=
  match keyOf (s.getV x) with
  | some k => .next (s.skipIf (s.keyDown k))
  | none => raise (.keyIndexOutOfRange (s.getV x)) s

/-- SKNP Vx: skip if key `V[x]` is not pressed; `KeyIndexOutOfRange` when `V[x] > 15` (R162). -/
def execSknp (x : Reg) (s : State) : Host.Outcome State Fault Refusal :=
  match keyOf (s.getV x) with
  | some k => .next (s.skipIf (!s.keyDown k))
  | none => raise (.keyIndexOutOfRange (s.getV x)) s

/-- LD Vx, K: the least pressed key's index, or the rewind of `PC` when no key is pressed (R163). -/
def execLdVxK (x : Reg) (s : State) : Host.Outcome State Fault Refusal :=
  match s.firstKey with
  | some k => .next (s.setV x (keyByte k))
  | none => .next s.rewindPc

/-- LD Vx, DT (R164). -/
def execLdVxDt (x : Reg) (s : State) : Host.Outcome State Fault Refusal := .next (s.setV x s.dt)

/-- LD DT, Vx (R165). -/
def execLdDtVx (x : Reg) (s : State) : Host.Outcome State Fault Refusal := .next (s.setDt (s.getV x))

/-- LD ST, Vx (R166). -/
def execLdStVx (x : Reg) (s : State) : Host.Outcome State Fault Refusal := .next (s.setSt (s.getV x))

end Sys2Proof.Machine
end

