-- ==== Sys2Proof/Machine/Step.lean ====
section
/-! DEFINITION. The Step (48_host_interface.md R171, R172), and the placing of a word where the next Step fetches it. -/

namespace Sys2Proof.Machine

/-- One Step: nothing on a faulted machine (R171, R181 (c)); else fetch, advance `PC` by 2, decode, execute, with the
checks in the order of 60_exceptions.md R198. Its draw `rnd` is `Config.rnd s.draws` (log 4). -/
def step (s : State) : Host.Outcome State Fault Refusal :=
  match s.fault with
  | some _ => .next s
  | none =>
    match fetchDecode s with
    | .error f => raise f s
    | .ok i => exec i s.advancePc

/-- `s` with an instruction's bytes stored where `step` fetches its next instruction: at `PC`, high byte first. A fetch
needs a clear fault latch and `PC ≤ 4094`; where `s` has neither, they are set (log 8). -/
def State.withFetchWord (s : State) (nbits w : Nat) : State :=
  { s with
    mem := s.mem.putBytes (fetchAddress s).toNat (tableBytes nbits w)
    pc := fetchAddress s
    fault := none }

end Sys2Proof.Machine
end

