-- ==== Sys2Proof/Machine/HostOps.lean ====
section
/-! DEFINITION. The operations the host performs on the block besides Step (48_host_interface.md R170 to R179,
70_reset_and_hazards.md R220), each one atomic transition (R181), and a host session: the machine with a record of whether
a Step has been performed since the last Reset, which decides whether Load is admitted (R175, D22). -/

namespace Sys2Proof.Machine

/-- One decrement, never below 0 (R173). -/
def countDown (b : Byte) : Byte := if b = 0 then 0 else b - 1

/-- TimerTick (R173). -/
def timerTick (s : State) : State :=
  match s.fault with
  | some _ => s
  | none => (s.setDt (countDown s.dt)).setSt (countDown s.st)

/-- `K` with bit `k` set to `pressed` (R174). -/
def latchKey (keys : BitVec 16) (k : Nat) (pressed : Bool) : BitVec 16 :=
  if pressed then keys ||| BitVec.twoPow 16 k else keys &&& ~~~ BitVec.twoPow 16 k

/-- KeySet: refused for `k > 15`, on a faulted machine too (R174; log 5); no change on a faulted machine (R200). -/
def keySet (k : Nat) (pressed : Bool) (s : State) : Host.Outcome State Fault Refusal :=
  if k < 16 then
    match s.fault with
    | some _ => .next s
    | none => .next (s.setKeys (latchKey s.keys k pressed))
  else .refused (.keySetIndex k)

/-- Load: the bytes at 512 and on, nothing else; refused beyond 3584 bytes and on a faulted machine (R175, R181 (c)). That
no Step may precede it is a condition on the host's sequence (D22): `Session.perform`. -/
def load (bytes : List Byte) (s : State) : Host.Outcome State Fault Refusal :=
  if Config.progMax < bytes.length then .refused (.loadTooLong bytes.length)
  else
    match s.fault with
    | some _ => .refused .loadFaulted
    | none => .next (s.setMem (s.mem.putBytes Config.progBase bytes))

/-- Reset: the state of 10_state.md R40, whatever the state before (70_reset_and_hazards.md R220). The model's own counter
goes on, so that draws after Reset are fresh (log 4). -/
def resetMachine (s : State) : State := { State.reset with draws := s.draws }

/-- DisplayRead: the bitmap (R177). -/
def displayRead (s : State) : Display := s.display

/-- TimerRead: `DT` and `ST` (R178). -/
def timerRead (s : State) : Byte × Byte := (s.dt, s.st)

/-- FaultRead: the latch (R179). -/
def faultRead (s : State) : Option Fault := s.fault

/-- The operations that change state (R170). -/
inductive HostOp where
  | step
  | timerTick
  | keySet (k : Nat) (pressed : Bool)
  | load (bytes : List Byte)
  | reset
deriving DecidableEq, Repr

/-- A machine in the host's hands, and whether a Step has been performed since the last Reset (R175, D22; log 7). -/
structure Session where
  machine : State
  stepped : Bool
deriving DecidableEq, Repr

/-- A freshly constructed machine (70_reset_and_hazards.md R221). -/
def Session.start : Session := ⟨State.reset, false⟩

/-- An outcome on the machine, seen in a session. -/
def Session.lift (stepped : Bool) : Host.Outcome State Fault Refusal → Host.Outcome Session Fault Refusal
  | .next t => .next ⟨t, stepped⟩
  | .fault f => .fault f
  | .refused r => .refused r

/-- One operation of the host (R170); Load only before the first Step (R175). -/
def Session.perform (op : HostOp) (σ : Session) : Host.Outcome Session Fault Refusal :=
  match op with
  | .step => Session.lift true (Machine.step σ.machine)
  | .timerTick => .next ⟨Machine.timerTick σ.machine, σ.stepped⟩
  | .keySet k pressed => Session.lift σ.stepped (Machine.keySet k pressed σ.machine)
  | .load bytes =>
    if σ.stepped then .refused .loadAfterStep else Session.lift false (Machine.load bytes σ.machine)
  | .reset => .next ⟨resetMachine σ.machine, false⟩

/-- A schedule: any list of operations, performed one after another (R181, R182), up to the first refusal. -/
def Session.run : List HostOp → Session → Host.Outcome Session Fault Refusal
  | [], σ => .next σ
  | op :: ops, σ =>
    match Session.perform op σ with
    | .next τ => Session.run ops τ
    | .fault f => .fault f
    | .refused r => .refused r

end Sys2Proof.Machine
end

