-- ==== Sys2Proof/Safety.lean ====
section
/-! DEFINITION. The terms claims are stated in: the invariant of the machine, what a faulted machine, a run and its end
are, which parts of the state an instruction may change, and which pixels a sprite covers. -/

namespace Sys2Proof.Machine

/-- The invariant every operation keeps: memory is in its canonical form, the model's own (log 9); and while the machine is
not faulted `PC` is at most 4350 and every return address held is at most 4096 (10_state.md R27 (c)). Nothing is promised
of a faulted machine's other state (60_exceptions.md R199). -/
def State.Inv (s : State) : Prop :=
  s.mem.wf ∧
    (s.fault = none → s.pc.toNat ≤ 4350 ∧ ∀ k : Fin 16, k.val < s.sp.val → (s.stack[k]).toNat ≤ 4096)

/-- A safe state: no fault is latched (60_exceptions.md R200). -/
def State.Safe (s : State) : Prop := s.fault = none

/-- The host's schedule `ops`, from a freshly made machine, is admitted and leads to `τ` (48_host_interface.md R182,
R184). -/
def ReachedBy (ops : List HostOp) (τ : Session) : Prop := Session.run ops Session.start = .next τ

/-- The conventional successful end of a run: `PC = p` and the word at `p` is `0x1000 + p` (48_host_interface.md R183,
D19), on a machine that is not faulted. -/
def State.Ended (s : State) : Prop := s.Safe ∧ fetchWord s = .ok (0x1000 + s.pc)

/-- `t` is `s` but for the general registers. -/
def OnlyV (s t : State) : Prop := t = { s with v := t.v }

/-- `t` is `s` but for the register `I`. -/
def OnlyI (s t : State) : Prop := t = { s with i := t.i }

/-- `t` is `s` but for `PC`. -/
def OnlyPc (s t : State) : Prop := t = { s with pc := t.pc }

/-- `t` is `s` but for memory. -/
def OnlyMem (s t : State) : Prop := t = { s with mem := t.mem }

/-- `t` is `s` but for the display and the general registers. -/
def OnlyDisplayAndV (s t : State) : Prop := t = { s with display := t.display, v := t.v }

/-- `t` is `s` but for `PC` and the call stack. -/
def OnlyPcAndStack (s t : State) : Prop := t = { s with pc := t.pc, stack := t.stack, sp := t.sp }

/-- A 1 bit of the sprite of `DRW Vx, Vy, n` lies on pixel (`px`, `py`): bit `7 − col` of the byte at `I + row`, at column
`(V[x] + col) mod 64` and row `(V[y] + row) mod 32` (44_display.md R152). -/
def State.Covers (s : State) (x y : Reg) (n : Fin 16) (px : Fin 64) (py : Fin 32) : Prop :=
  ∃ row < n.val, ∃ col < 8,
    (s.mem.get (s.i.toNat + row)).getLsbD (7 - col) = true ∧
      px.val = ((s.getV x).toNat + col) % 64 ∧ py.val = ((s.getV y).toNat + row) % 32

/-- The one fault an instruction can raise, with its condition on the state it is entered in (60_exceptions.md R190,
R198): `none` where the instruction completes (DRW with `n = 0`: log 10). -/
def executionFault (i : Instr) (s : State) : Option Fault :=
  match i with
  | .ret => if s.sp.val = 0 then some .stackUnderflow else none
  | .call _ => if s.sp.val = 16 then some .stackOverflow else none
  | .drw _ _ n =>
    if 1 ≤ n.val ∧ 4096 < s.i.toNat + n.val then some (.memOutOfRange (max s.i.toNat 4096)) else none
  | .ldB _ => if 4096 < s.i.toNat + 3 then some (.memOutOfRange (max s.i.toNat 4096)) else none
  | .ldMemVx x => if 4096 < s.i.toNat + x.val + 1 then some (.memOutOfRange (max s.i.toNat 4096)) else none
  | .ldVxMem x => if 4096 < s.i.toNat + x.val + 1 then some (.memOutOfRange (max s.i.toNat 4096)) else none
  | .skp x => if 15 < (s.getV x).toNat then some (.keyIndexOutOfRange (s.getV x)) else none
  | .sknp x => if 15 < (s.getV x).toNat then some (.keyIndexOutOfRange (s.getV x)) else none
  | .nop | .cls | .jp _ | .seImm _ _ | .sneImm _ _ | .seReg _ _ | .ldImm _ _ | .addImm _ _ | .ldReg _ _ | .orReg _ _
  | .andReg _ _ | .xorReg _ _ | .addReg _ _ | .sub _ _ | .shr _ | .subn _ _ | .shl _ | .sneReg _ _ | .ldI _ | .jpV0 _
  | .rnd _ _ | .ldVxDt _ | .ldVxK _ | .ldDtVx _ | .ldStVx _ | .addI _ | .ldF _ => none

/-! ### Whole rules as functions, for claims over every instruction -/

/-- The skip instructions and their conditions: `none` for an instruction that is no skip (41_skips.md R110 to R114,
45_keypad_timers.md R161, R162). -/
def skipCondition (i : Instr) (s : State) : Option Bool :=
  match i with
  | .seImm x kk => some (decide (s.getV x = kk))
  | .sneImm x kk => some (decide (s.getV x ≠ kk))
  | .seReg x y => some (decide (s.getV x = s.getV y))
  | .sneReg x y => some (decide (s.getV x ≠ s.getV y))
  | .skp x => some (s.keys.getLsbD (s.getV x).toNat)
  | .sknp x => some (!s.keys.getLsbD (s.getV x).toNat)
  | .nop | .cls | .ret | .jp _ | .call _ | .ldImm _ _ | .addImm _ _ | .ldReg _ _ | .orReg _ _ | .andReg _ _ | .xorReg _ _
  | .addReg _ _ | .sub _ _ | .shr _ | .subn _ _ | .shl _ | .ldI _ | .jpV0 _ | .rnd _ _ | .drw _ _ _ | .ldVxDt _ | .ldVxK _
  | .ldDtVx _ | .ldStVx _ | .addI _ | .ldF _ | .ldB _ | .ldMemVx _ | .ldVxMem _ => none

/-- How each instruction leaves `PC` when its Step does not fault, with `s` the state when the Step began and `p` its `PC`
(10_state.md R26). -/
def pcAfter (i : Instr) (s : State) : Nat :=
  let p := s.pc.toNat
  match i with
  | .jp nnn => nnn.toNat
  | .call nnn => nnn.toNat
  | .jpV0 nnn => nnn.toNat + (s.getV 0).toNat
  | .ret => if h : s.sp.val = 0 then 0 else (s.stack[s.sp.val - 1]).toNat
  | .ldVxK _ => if s.keys = 0 then p else p + 2
  | .seImm x kk => if s.getV x = kk then p + 4 else p + 2
  | .sneImm x kk => if s.getV x ≠ kk then p + 4 else p + 2
  | .seReg x y => if s.getV x = s.getV y then p + 4 else p + 2
  | .sneReg x y => if s.getV x ≠ s.getV y then p + 4 else p + 2
  | .skp x => if s.keys.getLsbD (s.getV x).toNat = true then p + 4 else p + 2
  | .sknp x => if s.keys.getLsbD (s.getV x).toNat = false then p + 4 else p + 2
  | .nop | .cls | .ldImm _ _ | .addImm _ _ | .ldReg _ _ | .orReg _ _ | .andReg _ _ | .xorReg _ _ | .addReg _ _ | .sub _ _
  | .shr _ | .subn _ _ | .shl _ | .ldI _ | .rnd _ _ | .drw _ _ _ | .ldVxDt _ | .ldDtVx _ | .ldStVx _ | .addI _ | .ldF _
  | .ldB _ | .ldMemVx _ | .ldVxMem _ => p + 2

/-- The registers an instruction writes: its destination field, and VF for the six that define a flag
(10_state.md R23); `V[0]`…`V[x]` for LD Vx, [I] (43_index_memory.md R146). -/
def writesRegister (i : Instr) (k : Reg) : Bool :=
  match i with
  | .ldImm x _ | .addImm x _ | .ldReg x _ | .orReg x _ | .andReg x _ | .xorReg x _ | .rnd x _ | .ldVxDt x | .ldVxK x =>
    decide (k = x)
  | .addReg x _ | .sub x _ | .shr x | .subn x _ | .shl x => decide (k = x ∨ k = vf)
  | .drw _ _ _ => decide (k = vf)
  | .ldVxMem x => decide (k.val ≤ x.val)
  | .nop | .cls | .ret | .jp _ | .call _ | .seImm _ _ | .sneImm _ _ | .seReg _ _ | .sneReg _ _ | .ldI _ | .jpV0 _ | .skp _
  | .sknp _ | .ldDtVx _ | .ldStVx _ | .addI _ | .ldF _ | .ldB _ | .ldMemVx _ => false

/-- The bytes an instruction stores, from the address `s.ea 0` on: the three digits of LD_B, the registers of LD_MEM_VX,
none for any other (43_index_memory.md R147). -/
def storedBytes (i : Instr) (s : State) : List Byte :=
  match i with
  | .ldB x => bcdDigits (s.getV x)
  | .ldMemVx x => s.registersUpTo x
  | .nop | .cls | .ret | .jp _ | .call _ | .seImm _ _ | .sneImm _ _ | .seReg _ _ | .ldImm _ _ | .addImm _ _ | .ldReg _ _
  | .orReg _ _ | .andReg _ _ | .xorReg _ _ | .addReg _ _ | .sub _ _ | .shr _ | .subn _ _ | .shl _ | .sneReg _ _ | .ldI _
  | .jpV0 _ | .rnd _ _ | .drw _ _ _ | .skp _ | .sknp _ | .ldVxDt _ | .ldVxK _ | .ldDtVx _ | .ldStVx _ | .addI _ | .ldF _
  | .ldVxMem _ => []

/-- The instructions that read or write memory as data (43_index_memory.md R147). -/
def accessesMemory (i : Instr) : Prop :=
  (∃ x y n, i = .drw x y n) ∨ (∃ x, i = .ldB x) ∨ (∃ x, i = .ldMemVx x) ∨ (∃ x, i = .ldVxMem x)

/-! ### Shapes shared by the claims about one instruction -/

/-- The word `w` encodes `i` (30_encoding.md R74). -/
def Encodes (w : Word) (i : Instr) : Prop := decodeWord w = some i

/-- `i` completes, and writes `b` to `V[x]` and nothing else. -/
def WritesOne (i : Instr) (s : State) (x : Reg) (b : Byte) : Prop :=
  ∃ t, exec i s = .next t ∧ OnlyV s t ∧ ∀ k, t.getV k = if k = x then b else s.getV k

/-- `i` completes, and writes `b` to `V[x]`, then the flag to VF (which stays when `x = 15`), and nothing else. -/
def WritesThenFlag (i : Instr) (s : State) (x : Reg) (b : Byte) (flag : Prop) [Decidable flag] : Prop :=
  ∃ t, exec i s = .next t ∧ OnlyV s t ∧
    ∀ k, t.getV k = if k = vf then (if flag then 1 else 0) else if k = x then b else s.getV k

/-- `i` completes as an instruction that sets `I` to the number `n` and changes nothing else. -/
def WritesI (i : Instr) (s : State) (n : Nat) : Prop :=
  ∃ t, exec i s = .next t ∧ OnlyI s t ∧ t.i.toNat = n

/-- `i` ends in the fault `f`: a next state in which `FAULT` holds `f`; nothing else of that state is said (R199). -/
def Faults (i : Instr) (s : State) (f : Fault) : Prop := ∃ t, exec i s = .next t ∧ t.fault = some f

/-- The values of 10_state.md R40. -/
def IsResetState (s : State) : Prop :=
  (∀ a < 80, s.mem.get a = Config.font a) ∧ (∀ a, 80 ≤ a → a < 4096 → s.mem.get a = 0) ∧ (∀ k, s.getV k = 0) ∧
    s.i = 0 ∧ s.pc = 512 ∧ (∀ k : Fin 16, s.stack[k] = 0) ∧ s.sp = 0 ∧ s.dt = 0 ∧ s.st = 0 ∧
    (∀ j, s.display.bit j = false) ∧ (∀ k, s.keyDown k = false) ∧ s.fault = none

end Sys2Proof.Machine
end

