-- ==== Sys2Proof/Certificates/Slice0/Obligations.lean ====
section
/-! DEFINITION. The statements for the provers. Each docstring names the rule of spec/ the statement formalises, or the
sections it is derived from. Every claim about an instruction's next state is about the state it is entered in, with `PC`
already advanced (40_control_flow.md R100), unless it speaks of `step`. -/

open Sys2Proof Sys2Proof.Machine

/-! ### Reset -/

/-- R40: the state after Reset and after construction. The model's own field `draws` is not mentioned (log 4). -/
def Obligations.ResetStateHasTheStatedValues : Prop :=
  IsResetState State.reset ∧ Session.start.machine = State.reset

/-- R220: Reset gives the state of R40 from any state, a faulted one too, is never refused, does not depend on the state
before, and two Resets equal one. The model's own counter `draws`, which is no state of the spec, stands apart (log 4). -/
def Obligations.ResetGivesTheResetStateFromAnyState : Prop :=
  ∀ σ τ : Session, ∃ t u, Session.perform .reset σ = .next ⟨t, false⟩ ∧ IsResetState t ∧
    Session.perform .reset τ = .next ⟨u, false⟩ ∧ u = { t with draws := u.draws } ∧
    Session.perform .reset ⟨t, false⟩ = .next ⟨t, false⟩

/-! ### Encoding -/

/-- R86: the encodings the source writes out in bytes. -/
def Obligations.SourceEncodingsDecode : Prop :=
  decode [0x60, 0x0A] = .ok (.ldImm 0 0x0A, []) ∧ decode [0x61, 0x05] = .ok (.ldImm 1 0x05, []) ∧
    decode [0x80, 0x14] = .ok (.addReg 0 1, [])

/-- Derived from R75: one word of each format, written out bit by bit from the table's patterns. -/
def Obligations.OneWordOfEachFormatDecodes : Prop :=
  Encodes 0b0000000011101110 .ret ∧ Encodes 0b0010101010111100 (.call 0xABC) ∧
    Encodes 0b1100001100001111 (.rnd 3 0x0F) ∧ Encodes 0b1001000100100000 (.sneReg 1 2) ∧
    Encodes 0b1110001010011110 (.skp 2) ∧ Encodes 0b1101111100010101 (.drw 15 1 5) ∧
    Encodes 0b1111111101100101 (.ldVxMem 15) ∧ Encodes 0b1000001100000110 (.shr 3)

/-- Decode and encode agree: the word of every instruction decodes to it, and so do its two bytes as stored, with every
operand at every value. -/
def Obligations.DecodeOfEncodeIsTheInstruction : Prop :=
  ∀ i : Instr, decodeWord (encode i) = some i ∧ ∀ rest, decode (encodeBytes i ++ rest) = .ok (i, rest)

/-- The other direction: a word decodes to an instruction only if it is that instruction's word, so no two words are one
instruction and no bit of a word is ignored (R79, R80). -/
def Obligations.EncodeOfDecodeIsTheWord : Prop :=
  ∀ (w : Word) (i : Instr), decodeWord w = some i → encode i = w

/-- R74: a word decodes to the instruction whose row has `w and mask = match`; at most one row matches; if none does, the
Step raises DecodeFailure. The decoder is written from the map of R77, the table from R75. -/
def Obligations.DecodingIsTheOpcodeTable : Prop :=
  ∀ w : Word,
    (∀ i, decodeWord w = some i → i.row ∈ opcodeTable ∧ ∀ r ∈ opcodeTable, r.admits w = true ↔ r = i.row) ∧
    (decodeWord w = none → ∀ r ∈ opcodeTable, r.admits w = false) ∧
    ((∀ r ∈ opcodeTable, r.admits w = false) →
      ∀ s : State, s.fault = none → s.pc.toNat ≤ 4094 → s.mem.fetch16 s.pc.toNat = w →
        ∃ t, step s = .next t ∧ t.fault = some (.decodeFailure w s.pc))

/-- The illegal words by class, from R81. -/
def Obligations.IllegalWordsByClass : Prop :=
  ∀ w : Word, decodeWord w = none ↔
    (nib1 w = 0x0 ∧ w ≠ 0x0000 ∧ w ≠ 0x00E0 ∧ w ≠ 0x00EE) ∨
    (nib1 w = 0x5 ∧ nib4 w ≠ 0) ∨
    (nib1 w = 0x8 ∧ (nib4 w = 0x8 ∨ nib4 w = 0x9 ∨ nib4 w = 0xA ∨ nib4 w = 0xB ∨ nib4 w = 0xC ∨ nib4 w = 0xD ∨
      nib4 w = 0xF)) ∨
    (nib1 w = 0x8 ∧ (nib4 w = 0x6 ∨ nib4 w = 0xE) ∧ nib3 w ≠ 0) ∨
    (nib1 w = 0x9 ∧ nib4 w ≠ 0) ∨
    (nib1 w = 0xE ∧ fieldKk w ≠ 0x9E ∧ fieldKk w ≠ 0xA1) ∨
    (nib1 w = 0xF ∧ fieldKk w ≠ 0x07 ∧ fieldKk w ≠ 0x0A ∧ fieldKk w ≠ 0x15 ∧ fieldKk w ≠ 0x18 ∧ fieldKk w ≠ 0x1E ∧
      fieldKk w ≠ 0x29 ∧ fieldKk w ≠ 0x33 ∧ fieldKk w ≠ 0x55 ∧ fieldKk w ≠ 0x65)

/-! ### The Step -/

/-- R171: the cycle. A faulted machine does not step; a fetch above 4094 and a word no row matches fault; any other word
runs as its instruction, with `PC` advanced by 2. -/
def Obligations.StepFetchesDecodesExecutes : Prop :=
  ∀ s : State,
    (s.fault ≠ none → step s = .next s) ∧
    (s.fault = none →
      (4094 < s.pc.toNat → ∃ t, step s = .next t ∧ t.fault = some (.fetchOutOfRange s.pc)) ∧
      (s.pc.toNat ≤ 4094 → ∀ w : Word, w = s.mem.get s.pc.toNat ++ s.mem.get (s.pc.toNat + 1) →
        (decodeWord w = none → ∃ t, step s = .next t ∧ t.fault = some (.decodeFailure w s.pc)) ∧
        ∀ i, decodeWord w = some i → step s = exec i { s with pc := s.pc + 2 }))

/-- R26: how each instruction leaves `PC`, for every Step that does not fault. -/
def Obligations.StepLeavesPcAsTabulated : Prop :=
  ∀ (s t : State) (i : Instr), s.fault = none → fetchDecode s = .ok i → step s = .next t → t.fault = none →
    t.pc.toNat = pcAfter i s

/-- Derived from R198, with the conditions of R190, R193 and R59: which fault a Step reports, in the order already faulted,
fetch, decode, the one execution fault of the instruction; and a Step always answers a next state. That DRW with `n = 0`
has no execution fault whatever `I` holds is the model's reading (log 10). -/
def Obligations.StepReportsTheFirstFaultInOrder : Prop :=
  ∀ s : State, ∃ t, step s = .next t ∧ t.fault =
    match s.fault with
    | some f => some f
    | none =>
      if 4094 < s.pc.toNat then some (.fetchOutOfRange s.pc)
      else
        match decodeWord (s.mem.fetch16 s.pc.toNat) with
        | none => some (.decodeFailure (s.mem.fetch16 s.pc.toNat) s.pc)
        | some i => executionFault i { s with pc := s.pc + 2 }

/-- Derived from R190 and R198: every instruction answers a next state, whose latch holds exactly the one fault its
condition gives: CALL only StackOverflow, RET only StackUnderflow, the four memory instructions only MemOutOfRange, the two
key skips only KeyIndexOutOfRange, every other instruction none. That DRW with `n = 0` raises none is the model's reading
(log 10). -/
def Obligations.EveryInstructionRaisesOnlyItsOwnFault : Prop :=
  ∀ (i : Instr) (s : State), s.fault = none → ∃ t, exec i s = .next t ∧ t.fault = executionFault i s

/-- R200: a faulted machine is stopped for good; only Reset changes it, and clears the latch. -/
def Obligations.FaultedMachineIsFrozenUntilReset : Prop :=
  ∀ (s : State) (f : Fault), s.fault = some f →
    step s = .next s ∧ timerTick s = s ∧ (∀ k < 16, ∀ pressed, keySet k pressed s = .next s) ∧
    (∀ bytes, ∃ r, load bytes s = .refused r) ∧ displayRead s = s.display ∧ timerRead s = (s.dt, s.st) ∧
    faultRead s = some f ∧ (resetMachine s).fault = none

/-- R183: the states a Step maps to themselves, on a machine that is not faulted, are exactly three kinds; and the first
kind, the jump to itself, is the conventional end of a run, the word `0x1000 + PC` at `PC`. -/
def Obligations.StepFixesExactlyThreeKindsOfState : Prop :=
  ∀ s : State, s.fault = none →
    (s.Ended ↔ ∃ nnn : Addr12, fetchDecode s = .ok (.jp nnn) ∧ nnn.toNat = s.pc.toNat) ∧
    (step s = .next s ↔
      (∃ nnn : Addr12, fetchDecode s = .ok (.jp nnn) ∧ nnn.toNat = s.pc.toNat) ∨
      (∃ nnn : Addr12, fetchDecode s = .ok (.jpV0 nnn) ∧ nnn.toNat + (s.getV 0).toNat = s.pc.toNat) ∨
      (∃ x : Reg, fetchDecode s = .ok (.ldVxK x) ∧ ∀ k, s.keyDown k = false))

/-- The model's harness: a Step on a state with an instruction placed by `withFetchWord` runs exactly that instruction
(log 8; derived). -/
def Obligations.PlacedInstructionRunsNext : Prop :=
  ∀ (s : State) (i : Instr),
    step (s.withFetchWord 16 (encode i).toNat) = exec i (s.withFetchWord 16 (encode i).toNat).advancePc

/-! ### The invariant -/

/-- Derived from R27 (c) and R40: the reset state meets the invariant. Its clause that the memory list is in canonical form
is the model's own choice (log 9), no rule of the spec. -/
def Obligations.ResetStateMeetsTheInvariant : Prop := State.reset.Inv

/-- Derived from R27 (c): every Step, from every state that meets the invariant, keeps it: `PC` never exceeds 4350, no
return address held exceeds 4096, so no write to `PC` is cut off; and the memory list keeps its canonical form (the model's
own, log 9). -/
def Obligations.StepKeepsTheInvariant : Prop :=
  ∀ s t : State, s.Inv → step s = .next t → t.Inv

/-- Derived from R27 (c), R170 and R182: every operation of the host that is admitted keeps the invariant, so every schedule
does. The invariant's clause that the memory list is in canonical form is the model's own choice (log 9), no rule of the
spec. -/
def Obligations.EveryHostOperationKeepsTheInvariant : Prop :=
  (∀ (op : HostOp) (σ τ : Session), σ.machine.Inv → Session.perform op σ = .next τ → τ.machine.Inv) ∧
    ∀ (ops : List HostOp) (τ : Session), ReachedBy ops τ → τ.machine.Inv

/-- The canonical form is canonical (log 9): two memories in that form with the same bytes are the same list. -/
def Obligations.CanonicalMemoriesWithEqualBytesAreEqual : Prop :=
  ∀ m n : Memory, m.wf → n.wf → (∀ a < 4096, m.get a = n.get a) → m = n

/-! ### Control flow -/

/-- R101: NOP is the word 0x0000 and changes nothing but the fetch's advance. -/
def Obligations.NopChangesNothing : Prop :=
  Encodes 0x0000 .nop ∧ (∀ s : State, exec .nop s = .next s) ∧
    ∀ s : State, s.fault = none → s.pc.toNat ≤ 4094 → s.mem.get s.pc.toNat = 0 → s.mem.get (s.pc.toNat + 1) = 0 →
      step s = .next { s with pc := s.pc + 2 }

/-- R102: RET. -/
def Obligations.RetPopsOrUnderflows : Prop :=
  Encodes 0x00EE .ret ∧ ∀ s : State,
    (∀ h : s.sp.val ≠ 0, ∃ t, exec .ret s = .next t ∧ OnlyPcAndStack s t ∧ t.stack = s.stack ∧
      t.sp.val = s.sp.val - 1 ∧ t.pc = s.stack[s.sp.val - 1]) ∧
    (s.sp.val = 0 → Faults .ret s .stackUnderflow)

/-- R103 and R105: the two jumps; the sum of JP V0 is neither wrapped nor cut to 12 bits. -/
def Obligations.JumpsSetOnlyPc : Prop :=
  ∀ (nnn : Addr12) (s : State),
    (Encodes (0x1#4 ++ nnn) (.jp nnn) ∧
      ∃ t, exec (.jp nnn) s = .next t ∧ OnlyPc s t ∧ t.pc.toNat = nnn.toNat) ∧
    (Encodes (0xB#4 ++ nnn) (.jpV0 nnn) ∧
      ∃ t, exec (.jpV0 nnn) s = .next t ∧ OnlyPc s t ∧ t.pc.toNat = nnn.toNat + (s.getV 0).toNat)

/-- R104: CALL. -/
def Obligations.CallPushesOrOverflows : Prop :=
  ∀ (nnn : Addr12) (s : State), Encodes (0x2#4 ++ nnn) (.call nnn) ∧
    (s.sp.val ≠ 16 → ∃ t, exec (.call nnn) s = .next t ∧ OnlyPcAndStack s t ∧ t.pc.toNat = nnn.toNat ∧
      t.sp.val = s.sp.val + 1 ∧ ∀ k : Fin 16, t.stack[k] = if k.val = s.sp.val then s.pc else s.stack[k]) ∧
    (s.sp.val = 16 → Faults (.call nnn) s .stackOverflow)

/-- Derived from R102 and R104 (example S6): RET straight after CALL brings `PC` back to the instruction after the CALL,
and leaves every held return address and all else as it was. -/
def Obligations.RetUndoesCall : Prop :=
  ∀ (nnn : Addr12) (s t : State), s.sp.val ≠ 16 → exec (.call nnn) s = .next t →
    ∃ u, exec .ret t = .next u ∧ u.pc = s.pc ∧ u.sp = s.sp ∧ OnlyPcAndStack s u ∧
      ∀ k : Fin 16, k.val < s.sp.val → u.stack[k] = s.stack[k]

/-! ### Skips -/

/-- R111 to R114: the four skips on register values. -/
def Obligations.RegisterSkipsChangeOnlyPc : Prop :=
  ∀ (x y : Reg) (kk : Byte) (s : State),
    (Encodes (0x3#4 ++ BitVec.ofFin (w := 4) x ++ kk) (.seImm x kk) ∧
      exec (.seImm x kk) s = .next { s with pc := if s.getV x = kk then s.pc + 2 else s.pc }) ∧
    (Encodes (0x4#4 ++ BitVec.ofFin (w := 4) x ++ kk) (.sneImm x kk) ∧
      exec (.sneImm x kk) s = .next { s with pc := if s.getV x ≠ kk then s.pc + 2 else s.pc }) ∧
    (Encodes (0x5#4 ++ BitVec.ofFin (w := 4) x ++ BitVec.ofFin (w := 4) y ++ 0x0#4) (.seReg x y) ∧
      exec (.seReg x y) s = .next { s with pc := if s.getV x = s.getV y then s.pc + 2 else s.pc }) ∧
    (Encodes (0x9#4 ++ BitVec.ofFin (w := 4) x ++ BitVec.ofFin (w := 4) y ++ 0x0#4) (.sneReg x y) ∧
      exec (.sneReg x y) s = .next { s with pc := if s.getV x ≠ s.getV y then s.pc + 2 else s.pc })

/-- R110: a Step that runs a skip ends at `p + 4` or `p + 2`, raises nothing, whatever bytes stand at `p + 2` and wherever
`p` is, and changes nothing but `PC`; for a key skip the key index must be in range. -/
def Obligations.SkipStepNeverLooksAtTheSkippedWord : Prop :=
  ∀ (s : State) (i : Instr) (c : Bool), s.fault = none → fetchDecode s = .ok i → skipCondition i s = some c →
    executionFault i s = none →
    ∃ t, step s = .next t ∧ OnlyPc s t ∧ t.pc.toNat = s.pc.toNat + (if c then 4 else 2)

/-! ### Loads, arithmetic, logic, shifts, random -/

/-- R123, R124, R125: register loads and the add with no flag. -/
def Obligations.RegisterLoadsAndImmediateAdd : Prop :=
  ∀ (x y : Reg) (kk : Byte) (s : State),
    (Encodes (0x6#4 ++ BitVec.ofFin (w := 4) x ++ kk) (.ldImm x kk) ∧ WritesOne (.ldImm x kk) s x kk) ∧
    (Encodes (0x7#4 ++ BitVec.ofFin (w := 4) x ++ kk) (.addImm x kk) ∧
      WritesOne (.addImm x kk) s x (BitVec.ofNat 8 (((s.getV x).toNat + kk.toNat) % 256))) ∧
    (Encodes (0x8#4 ++ BitVec.ofFin (w := 4) x ++ BitVec.ofFin (w := 4) y ++ 0x0#4) (.ldReg x y) ∧
      WritesOne (.ldReg x y) s x (s.getV y))

/-- R126, R127, R128: the logic instructions, with VF left alone unless it is the destination. -/
def Obligations.LogicWritesOnlyTheDestination : Prop :=
  ∀ (x y : Reg) (s : State),
    (Encodes (0x8#4 ++ BitVec.ofFin (w := 4) x ++ BitVec.ofFin (w := 4) y ++ 0x1#4) (.orReg x y) ∧
      WritesOne (.orReg x y) s x (s.getV x ||| s.getV y)) ∧
    (Encodes (0x8#4 ++ BitVec.ofFin (w := 4) x ++ BitVec.ofFin (w := 4) y ++ 0x2#4) (.andReg x y) ∧
      WritesOne (.andReg x y) s x (s.getV x &&& s.getV y)) ∧
    (Encodes (0x8#4 ++ BitVec.ofFin (w := 4) x ++ BitVec.ofFin (w := 4) y ++ 0x3#4) (.xorReg x y) ∧
      WritesOne (.xorReg x y) s x (s.getV x ^^^ s.getV y))

/-- R130: the sum modulo 256, then the carry in VF. -/
def Obligations.AddWritesSumThenCarry : Prop :=
  ∀ (x y : Reg) (s : State),
    Encodes (0x8#4 ++ BitVec.ofFin (w := 4) x ++ BitVec.ofFin (w := 4) y ++ 0x4#4) (.addReg x y) ∧
    WritesThenFlag (.addReg x y) s x (BitVec.ofNat 8 (((s.getV x).toNat + (s.getV y).toNat) % 256))
      ((s.getV x).toNat + (s.getV y).toNat > 255)

/-- R131 and R133: the wrapped difference, then not-borrow in VF. -/
def Obligations.SubtractionsWriteDifferenceThenNotBorrow : Prop :=
  ∀ (x y : Reg) (s : State) (a b : Nat), a = (s.getV x).toNat → b = (s.getV y).toNat →
    (Encodes (0x8#4 ++ BitVec.ofFin (w := 4) x ++ BitVec.ofFin (w := 4) y ++ 0x5#4) (.sub x y) ∧
      WritesThenFlag (.sub x y) s x (BitVec.ofNat 8 (if b ≤ a then a - b else a + 256 - b)) (b ≤ a)) ∧
    (Encodes (0x8#4 ++ BitVec.ofFin (w := 4) x ++ BitVec.ofFin (w := 4) y ++ 0x7#4) (.subn x y) ∧
      WritesThenFlag (.subn x y) s x (BitVec.ofNat 8 (if a ≤ b then b - a else b + 256 - a)) (a ≤ b))

/-- R132 and R134: the bit shifted out in VF and the shifted register; for `x = 15` the flag is written first and shifted. -/
def Obligations.ShiftsCaptureTheBitShiftedOut : Prop :=
  ∀ (x : Reg) (s : State) (old : Nat), old = (s.getV x).toNat →
    (Encodes (0x8#4 ++ BitVec.ofFin (w := 4) x ++ 0x06#8) (.shr x) ∧
      ∃ t, exec (.shr x) s = .next t ∧ OnlyV s t ∧ ∀ k, t.getV k =
        if k = x then (if x = vf then 0 else BitVec.ofNat 8 (old / 2))
        else if k = vf then BitVec.ofNat 8 (old % 2) else s.getV k) ∧
    (Encodes (0x8#4 ++ BitVec.ofFin (w := 4) x ++ 0x0E#8) (.shl x) ∧
      ∃ t, exec (.shl x) s = .next t ∧ OnlyV s t ∧ ∀ k, t.getV k =
        if k = x then (if x = vf then BitVec.ofNat 8 (2 * (old / 128)) else BitVec.ofNat 8 (2 * old % 256))
        else if k = vf then BitVec.ofNat 8 (old / 128) else s.getV k)

/-- R121: the final value of VF when the destination of a flag-writing arithmetic instruction is VF. -/
def Obligations.FlagOrderWhenTheDestinationIsVF : Prop :=
  ∀ (y : Reg) (s : State) (a b : Nat), a = (s.getV vf).toNat → b = (s.getV y).toNat →
    (∃ t, exec (.addReg vf y) s = .next t ∧ t.getV vf = if a + b > 255 then 1 else 0) ∧
    (∃ t, exec (.sub vf y) s = .next t ∧ t.getV vf = if a ≥ b then 1 else 0) ∧
    (∃ t, exec (.subn vf y) s = .next t ∧ t.getV vf = if b ≥ a then 1 else 0) ∧
    (∃ t, exec (.shr vf) s = .next t ∧ t.getV vf = 0) ∧
    (∃ t, exec (.shl vf) s = .next t ∧ t.getV vf = if a < 128 then 0 else 2)

/-- Derived from R135: `V[x]` receives a draw ANDed with `kk`. That the draw is `Config.rnd` of the model's counter, and
that the counter then advances, is the model's own (log 4); nothing is known of its value. -/
def Obligations.RndWritesADrawAndedWithTheImmediate : Prop :=
  ∀ (x : Reg) (kk : Byte) (s : State), Encodes (0xC#4 ++ BitVec.ofFin (w := 4) x ++ kk) (.rnd x kk) ∧
    ∃ t, exec (.rnd x kk) s = .next t ∧ t = { s with v := t.v, draws := s.draws + 1 } ∧
      ∀ k, t.getV k = if k = x then Config.rnd s.draws &&& kk else s.getV k

/-- Derived from R23: no instruction that completes changes a register outside its destination and, for the six that define
a flag, VF. -/
def Obligations.RegistersChangeOnlyWhereNamed : Prop :=
  ∀ (i : Instr) (s t : State), exec i s = .next t → t.fault = none →
    ∀ k, writesRegister i k = false → t.getV k = s.getV k

/-! ### Index register and memory -/

/-- R141, R142, R143: the three instructions that write `I`. -/
def Obligations.IndexInstructionsWriteOnlyI : Prop :=
  ∀ (nnn : Addr12) (x : Reg) (s : State),
    (Encodes (0xA#4 ++ nnn) (.ldI nnn) ∧ WritesI (.ldI nnn) s nnn.toNat) ∧
    (Encodes (0xF#4 ++ BitVec.ofFin (w := 4) x ++ 0x1E#8) (.addI x) ∧
      WritesI (.addI x) s ((s.i.toNat + (s.getV x).toNat) % 65536)) ∧
    (Encodes (0xF#4 ++ BitVec.ofFin (w := 4) x ++ 0x29#8) (.ldF x) ∧ WritesI (.ldF x) s (5 * (s.getV x).toNat))

/-- R144: LD B stores the three decimal digits at `I`, `I + 1`, `I + 2`, changes no other byte and nothing else, and faults
when `I > 4093`. -/
def Obligations.BcdStoresThreeDigits : Prop :=
  ∀ (x : Reg) (s : State) (v : Nat), v = (s.getV x).toNat →
    Encodes (0xF#4 ++ BitVec.ofFin (w := 4) x ++ 0x33#8) (.ldB x) ∧
    (s.i.toNat ≤ 4093 → ∃ t, exec (.ldB x) s = .next t ∧ OnlyMem s t ∧
      (t.mem.get (s.ea 0)).toNat = v / 100 ∧ (t.mem.get (s.ea 1)).toNat = v / 10 % 10 ∧
      (t.mem.get (s.ea 2)).toNat = v % 10 ∧
      ∀ a, a < s.ea 0 ∨ s.ea 0 + 3 ≤ a → t.mem.get a = s.mem.get a) ∧
    (4093 < s.i.toNat → Faults (.ldB x) s (.memOutOfRange (max s.i.toNat 4096)))

/-- R145: LD [I], Vx stores `V[0]`…`V[x]` at `I`…`I + x`, changes no other byte and nothing else, and faults when
`I + x > 4095`. -/
def Obligations.RegisterStoreWritesTheRange : Prop :=
  ∀ (x : Reg) (s : State), Encodes (0xF#4 ++ BitVec.ofFin (w := 4) x ++ 0x55#8) (.ldMemVx x) ∧
    (s.i.toNat + x.val ≤ 4095 → ∃ t, exec (.ldMemVx x) s = .next t ∧ OnlyMem s t ∧
      (∀ k : Reg, k.val ≤ x.val → t.mem.get (s.ea k.val) = s.getV k) ∧
      ∀ a, a < s.ea 0 ∨ s.ea x.val < a → t.mem.get a = s.mem.get a) ∧
    (4095 < s.i.toNat + x.val → Faults (.ldMemVx x) s (.memOutOfRange (max s.i.toNat 4096)))

/-- R146: LD Vx, [I] loads `V[0]`…`V[x]` from `I`…`I + x`, changes nothing else, and faults when `I + x > 4095`. -/
def Obligations.RegisterLoadReadsTheRange : Prop :=
  ∀ (x : Reg) (s : State), Encodes (0xF#4 ++ BitVec.ofFin (w := 4) x ++ 0x65#8) (.ldVxMem x) ∧
    (s.i.toNat + x.val ≤ 4095 → ∃ t, exec (.ldVxMem x) s = .next t ∧ OnlyV s t ∧
      ∀ k : Reg, t.getV k = if k.val ≤ x.val then s.mem.get (s.i.toNat + k.val) else s.getV k) ∧
    (4095 < s.i.toNat + x.val → Faults (.ldVxMem x) s (.memOutOfRange (max s.i.toNat 4096)))

/-- Derived from R147: of all instructions that complete, LD B and LD [I], Vx alone store, at `I` and on, and every byte
outside the bytes they store reads as before. -/
def Obligations.MemoryChangesOnlyWhereStored : Prop :=
  ∀ (i : Instr) (s t : State), exec i s = .next t → t.fault = none →
    ∀ a, t.mem.get a =
      if h : s.ea 0 ≤ a ∧ a - s.ea 0 < (storedBytes i s).length then (storedBytes i s)[a - s.ea 0] else s.mem.get a

/-- Derived from R147: an instruction that is none of DRW, LD B, LD [I], Vx and LD Vx, [I] neither reads nor writes memory
as data: it does the same over any other memory, and leaves that memory as it is. RND is compared with the same draw in
both (the model's choice, log 4). -/
def Obligations.OtherInstructionsNeverTouchMemory : Prop :=
  ∀ (i : Instr) (s t : State), ¬accessesMemory i → exec i s = .next t → t.fault = none →
    ∀ m : Memory, exec i { s with mem := m } = .next { t with mem := m }

/-- R64: a store is seen by the very next fetch, wherever `PC` stands among the bytes stored. -/
def Obligations.NextFetchSeesTheStore : Prop :=
  ∀ (i : Instr) (s t : State), (∃ x, i = .ldB x ∨ i = .ldMemVx x) → exec i s = .next t → t.fault = none →
    ∀ p : Nat, t.pc.toNat = p → p ≤ 4094 → ∀ byte : Nat → Byte,
      (∀ a, byte a =
        if h : s.ea 0 ≤ a ∧ a - s.ea 0 < (storedBytes i s).length then (storedBytes i s)[a - s.ea 0] else s.mem.get a) →
      fetchWord t = .ok (byte p ++ byte (p + 1))

/-! ### Display -/

/-- R151: CLS turns every pixel off and changes nothing else. -/
def Obligations.ClsTurnsEveryPixelOff : Prop :=
  Encodes 0x00E0 .cls ∧ ∀ s : State, ∃ t, exec .cls s = .next t ∧ t = { s with display := t.display } ∧
    ∀ j, t.display.bit j = false

/-- Derived from R152, R59 and R193: DRW toggles exactly the pixels the sprite's 1 bits cover, sets VF to 1 if one of them
was on and to 0 if not, changes nothing else, and faults when `n ≥ 1` and the sprite's bytes leave memory. That DRW with
`n = 0` completes whatever `I` holds is the model's reading (log 10): R59, R193, the Exceptions line of R152 and vector T608
say so, one line of R152's pseudocode would fault for `I > 4096`. -/
def Obligations.DrawTogglesCoveredPixelsAndReportsCollision : Prop :=
  ∀ (x y : Reg) (n : Fin 16) (s : State),
    Encodes (0xD#4 ++ BitVec.ofFin (w := 4) x ++ BitVec.ofFin (w := 4) y ++ BitVec.ofFin (w := 4) n) (.drw x y n) ∧
    (n.val = 0 ∨ s.i.toNat + n.val ≤ 4096 → ∃ t, exec (.drw x y n) s = .next t ∧ OnlyDisplayAndV s t ∧
      (∀ px py, s.Covers x y n px py → t.display.pixel px py = !s.display.pixel px py) ∧
      (∀ px py, ¬s.Covers x y n px py → t.display.pixel px py = s.display.pixel px py) ∧
      (∀ k, k ≠ vf → t.getV k = s.getV k) ∧
      ((∃ px py, s.Covers x y n px py ∧ s.display.pixel px py = true) → t.getV vf = 1) ∧
      ((∀ px py, s.Covers x y n px py → s.display.pixel px py = false) → t.getV vf = 0)) ∧
    (1 ≤ n.val → 4096 < s.i.toNat + n.val → Faults (.drw x y n) s (.memOutOfRange (max s.i.toNat 4096)))

/-- R155: two draws of one sprite at the same coordinates, neither of them VF, restore the bitmap; the second reports a
collision exactly when the first turned a pixel on. -/
def Obligations.DrawIsSelfInverse : Prop :=
  ∀ (x y : Reg) (n : Fin 16) (s t u : State), x ≠ vf → y ≠ vf →
    exec (.drw x y n) s = .next t → t.fault = none → exec (.drw x y n) t = .next u →
    u.display = s.display ∧
    (u.getV vf = 1 ↔ ∃ px py, s.display.pixel px py = false ∧ t.display.pixel px py = true)

/-- R153: the start coordinates wrap: a draw depends on `V[x]` modulo 64 and on `V[y]` modulo 32 only. -/
def Obligations.DrawCoordinatesWrap : Prop :=
  ∀ (x y : Reg) (n : Fin 16) (s s' t t' : State), OnlyV s s' →
    (s.getV x).toNat % 64 = (s'.getV x).toNat % 64 → (s.getV y).toNat % 32 = (s'.getV y).toNat % 32 →
    exec (.drw x y n) s = .next t → t.fault = none → exec (.drw x y n) s' = .next t' →
    t'.fault = none ∧ t'.display = t.display ∧ t'.getV vf = t.getV vf

/-! ### Keypad and timers -/

/-- R161 and R162: the key skips, and their fault when `V[x] > 15`. -/
def Obligations.KeySkipsReadTheLatch : Prop :=
  ∀ (x : Reg) (s : State) (k : Nat), k = (s.getV x).toNat →
    Encodes (0xE#4 ++ BitVec.ofFin (w := 4) x ++ 0x9E#8) (.skp x) ∧
    Encodes (0xE#4 ++ BitVec.ofFin (w := 4) x ++ 0xA1#8) (.sknp x) ∧
    (k ≤ 15 →
      exec (.skp x) s = .next { s with pc := if s.keys.getLsbD k = true then s.pc + 2 else s.pc } ∧
      exec (.sknp x) s = .next { s with pc := if s.keys.getLsbD k = false then s.pc + 2 else s.pc }) ∧
    (15 < k → Faults (.skp x) s (.keyIndexOutOfRange (s.getV x)) ∧ Faults (.sknp x) s (.keyIndexOutOfRange (s.getV x)))

/-- R163: the key wait: the least pressed key's index, or the rewind; and a Step that waits leaves the whole state as it
was. -/
def Obligations.KeyWaitTakesTheLowestKeyOrWaits : Prop :=
  ∀ (x : Reg) (s : State), Encodes (0xF#4 ++ BitVec.ofFin (w := 4) x ++ 0x0A#8) (.ldVxK x) ∧
    ((∀ j, s.keyDown j = false) → exec (.ldVxK x) s = .next { s with pc := s.pc - 2 }) ∧
    (∀ k : Key, s.keyDown k = true → (∀ j : Key, j.val < k.val → s.keyDown j = false) →
      WritesOne (.ldVxK x) s x (BitVec.ofNat 8 k.val)) ∧
    ((∀ j, s.keyDown j = false) → s.fault = none → fetchDecode s = .ok (.ldVxK x) → step s = .next s)

/-- R164, R165, R166: the timer accesses. -/
def Obligations.TimerAccessesCopyOneByte : Prop :=
  ∀ (x : Reg) (s : State),
    (Encodes (0xF#4 ++ BitVec.ofFin (w := 4) x ++ 0x07#8) (.ldVxDt x) ∧ WritesOne (.ldVxDt x) s x s.dt) ∧
    (Encodes (0xF#4 ++ BitVec.ofFin (w := 4) x ++ 0x15#8) (.ldDtVx x) ∧
      exec (.ldDtVx x) s = .next { s with dt := s.getV x }) ∧
    (Encodes (0xF#4 ++ BitVec.ofFin (w := 4) x ++ 0x18#8) (.ldStVx x) ∧
      exec (.ldStVx x) s = .next { s with st := s.getV x })

/-! ### Whole-machine rules -/

/-- Derived from R24, R28 to R33: which instructions write each register that is not a general one. No instruction writes
`K`; the model's counter moves only with RND (log 4). -/
def Obligations.SpecialRegistersChangeOnlyByTheirInstructions : Prop :=
  ∀ (i : Instr) (s t : State), exec i s = .next t → t.fault = none →
    (t.i ≠ s.i → (∃ nnn, i = .ldI nnn) ∨ (∃ x, i = .addI x) ∨ ∃ x, i = .ldF x) ∧
    (t.stack ≠ s.stack → ∃ nnn, i = .call nnn) ∧
    (t.sp ≠ s.sp → (∃ nnn, i = .call nnn) ∨ i = .ret) ∧
    (t.dt ≠ s.dt → ∃ x, i = .ldDtVx x) ∧
    (t.st ≠ s.st → ∃ x, i = .ldStVx x) ∧
    (t.display ≠ s.display → i = .cls ∨ ∃ x y n, i = .drw x y n) ∧
    t.keys = s.keys ∧
    (t.draws ≠ s.draws → ∃ x kk, i = .rnd x kk)

/-- Derived from R31: no instruction reads `ST`: two machines that differ only in `ST` do the same, and differ in nothing
else afterwards. RND is compared with the same draw in both (the model's choice, log 4). -/
def Obligations.SoundTimerIsNeverRead : Prop :=
  ∀ (i : Instr) (s t : State) (b : Byte), exec i s = .next t → t.fault = none →
    ∃ c, exec i { s with st := b } = .next { t with st := c } ∧ (c = b ∨ ∃ x, i = .ldStVx x ∧ c = t.st)

/-! ### The host's operations -/

/-- R173: TimerTick. -/
def Obligations.TimerTickDecrementsOnceAndStopsAtZero : Prop :=
  ∀ s : State, (s.fault ≠ none → timerTick s = s) ∧
    (s.fault = none → ∃ t, timerTick s = t ∧ t = { s with dt := t.dt, st := t.st } ∧
      t.dt.toNat = s.dt.toNat - 1 ∧ t.st.toNat = s.st.toNat - 1)

/-- Derived from R174 and R200: KeySet changes one latch bit and nothing else; an index above 15 is refused. That such an
index is refused on a faulted machine too, where R200 says that KeySet changes nothing, is the model's reading (log 5). -/
def Obligations.KeySetChangesOneBit : Prop :=
  ∀ (k : Nat) (pressed : Bool) (s : State),
    (15 < k → ∃ r, keySet k pressed s = .refused r) ∧
    (k ≤ 15 → s.fault ≠ none → keySet k pressed s = .next s) ∧
    (k ≤ 15 → s.fault = none → ∃ t, keySet k pressed s = .next t ∧ t = { s with keys := t.keys } ∧
      ∀ j : Key, t.keyDown j = if j.val = k then pressed else s.keyDown j)

/-- R175: Load copies the bytes to 512 and on and changes nothing else; it is refused beyond 3584 bytes and after a Step. -/
def Obligations.LoadCopiesTheImage : Prop :=
  ∀ (bytes : List Byte) (σ : Session),
    (3584 < bytes.length ∨ σ.stepped = true → ∃ r, Session.perform (.load bytes) σ = .refused r) ∧
    (bytes.length ≤ 3584 → σ.stepped = false → σ.machine.fault = none →
      ∃ t, Session.perform (.load bytes) σ = .next ⟨t, false⟩ ∧ OnlyMem σ.machine t ∧
        (∀ (j : Nat) (h : j < bytes.length), t.mem.get (512 + j) = bytes[j]) ∧
        ∀ a, a < 512 ∨ 512 + bytes.length ≤ a → t.mem.get a = σ.machine.mem.get a)

/-- R224: a launch state is Load applied to the reset state; the first Step fetches the image's first two bytes. -/
def Obligations.LaunchBeginsWithTheFirstImageWord : Prop :=
  ∀ (b0 b1 : Byte) (rest : List Byte), rest.length + 2 ≤ 3584 →
    ∃ t, load (b0 :: b1 :: rest) State.reset = .next t ∧ OnlyMem State.reset t ∧ t.pc = 512 ∧
      fetchWord t = .ok (b0 ++ b1)

/-- R177, R178, R179: the reads return the bitmap in the order `D[64·py + px]`, the timers and the latch. -/
def Obligations.ReadsReturnTheState : Prop :=
  ∀ s : State, displayRead s = s.display ∧
    (∀ (px : Fin 64) (py : Fin 32), (displayRead s).bit ⟨64 * py.val + px.val, by omega⟩ = s.display.pixel px py) ∧
    timerRead s = (s.dt, s.st) ∧ faultRead s = s.fault
end

