-- ==== Sys2Proof/Laws/Decode.lean ====
section
/-! SUPPORT. The fields of an encoded word, one lemma per format and field (30_encoding.md R71 to R73), and what masking a
word of each format leaves. -/

namespace Sys2Proof

/-! ### Slices of a concatenation -/

theorem extract_high {v w : Nat} (a : BitVec v) (b : BitVec w) : (a ++ b).extractLsb' w v = a := by
  rw [BitVec.extractLsb'_append_eq_of_le (Nat.le_refl w), Nat.sub_self]
  exact BitVec.extractLsb'_eq_self

theorem extract_low {v w : Nat} (a : BitVec v) (b : BitVec w) : (a ++ b).extractLsb' 0 w = b := by
  rw [BitVec.extractLsb'_append_eq_of_add_le (by omega)]
  exact BitVec.extractLsb'_eq_self

theorem extract_above {v w : Nat} (a : BitVec v) (b : BitVec w) (s l : Nat) :
    (a ++ b).extractLsb' (w + s) l = a.extractLsb' s l := by
  rw [BitVec.extractLsb'_append_eq_of_le (Nat.le_add_right w s), Nat.add_sub_cancel_left]

theorem extract_below {v w : Nat} (a : BitVec v) (b : BitVec w) (s l : Nat) (h : s + l ≤ w) :
    (a ++ b).extractLsb' s l = b.extractLsb' s l :=
  BitVec.extractLsb'_append_eq_of_add_le h

/-! ### Format A -/

theorem nib1_encodeA (op : Nibble) (nnn : Addr12) : nib1 (encodeA op nnn) = op := extract_high op nnn

theorem fieldNnn_encodeA (op : Nibble) (nnn : Addr12) : fieldNnn (encodeA op nnn) = nnn := extract_low op nnn

theorem and_encodeA (op : Nibble) (nnn : Addr12) : encodeA op nnn &&& 0xF000 = encodeA op 0 := by
  refine (BitVec.and_append (x₁ := op) (y₁ := nnn) (x₂ := 0xF#4) (y₂ := 0#12)).trans ?_
  rw [BitVec.and_zero, show op &&& 0xF#4 = op from BitVec.and_allOnes]
  rfl

/-! ### Formats I and S: class, `x`, a low byte -/

theorem nib1_encodeI (op : Nibble) (x : Reg) (kk : Byte) : nib1 (encodeI op x kk) = op :=
  (extract_above (op ++ BitVec.ofFin (w := 4) x) kk 4 4).trans (extract_high op _)

theorem fieldX_encodeI (op : Nibble) (x : Reg) (kk : Byte) : fieldX (encodeI op x kk) = x :=
  congrArg BitVec.toFin <| (extract_above (op ++ BitVec.ofFin (w := 4) x) kk 0 4).trans (extract_low op _)

theorem fieldKk_encodeI (op : Nibble) (x : Reg) (kk : Byte) : fieldKk (encodeI op x kk) = kk :=
  extract_low (op ++ BitVec.ofFin (w := 4) x) kk

theorem nib3_encodeI (op : Nibble) (x : Reg) (kk : Byte) : nib3 (encodeI op x kk) = kk.extractLsb' 4 4 :=
  extract_below (op ++ BitVec.ofFin (w := 4) x) kk 4 4 (by omega)

theorem nib4_encodeI (op : Nibble) (x : Reg) (kk : Byte) : nib4 (encodeI op x kk) = kk.extractLsb' 0 4 :=
  extract_below (op ++ BitVec.ofFin (w := 4) x) kk 0 4 (by omega)

theorem encodeS_eq (op : Nibble) (x : Reg) (low : Byte) : encodeS op x low = encodeI op x low := rfl

theorem and_encodeI (op : Nibble) (x : Reg) (kk : Byte) : encodeI op x kk &&& 0xF000 = encodeI op 0 0 := by
  refine (BitVec.and_append (x₁ := op ++ BitVec.ofFin (w := 4) x) (y₁ := kk) (x₂ := 0xF#4 ++ 0#4) (y₂ := 0#8)).trans ?_
  rw [BitVec.and_zero, BitVec.and_append, BitVec.and_zero, show op &&& 0xF#4 = op from BitVec.and_allOnes]
  rfl

theorem and_encodeS (op : Nibble) (x : Reg) (low : Byte) : encodeS op x low &&& 0xF0FF = encodeS op 0 low := by
  refine (BitVec.and_append (x₁ := op ++ BitVec.ofFin (w := 4) x) (y₁ := low) (x₂ := 0xF#4 ++ 0#4)
    (y₂ := 0xFF#8)).trans ?_
  rw [show low &&& 0xFF#8 = low from BitVec.and_allOnes, BitVec.and_append, BitVec.and_zero,
    show op &&& 0xF#4 = op from BitVec.and_allOnes]
  rfl

/-! ### Formats R and D: class, `x`, `y`, a low nibble -/

theorem nib1_encodeR (op : Nibble) (x y : Reg) (low : Nibble) : nib1 (encodeR op x y low) = op :=
  (extract_above (op ++ BitVec.ofFin (w := 4) x ++ BitVec.ofFin (w := 4) y) low 8 4).trans <|
    (extract_above (op ++ BitVec.ofFin (w := 4) x) (BitVec.ofFin (w := 4) y) 4 4).trans (extract_high op _)

theorem fieldX_encodeR (op : Nibble) (x y : Reg) (low : Nibble) : fieldX (encodeR op x y low) = x :=
  congrArg BitVec.toFin <|
    (extract_above (op ++ BitVec.ofFin (w := 4) x ++ BitVec.ofFin (w := 4) y) low 4 4).trans <|
      (extract_above (op ++ BitVec.ofFin (w := 4) x) (BitVec.ofFin (w := 4) y) 0 4).trans (extract_low op _)

theorem fieldY_encodeR (op : Nibble) (x y : Reg) (low : Nibble) : fieldY (encodeR op x y low) = y :=
  congrArg BitVec.toFin <|
    (extract_above (op ++ BitVec.ofFin (w := 4) x ++ BitVec.ofFin (w := 4) y) low 0 4).trans (extract_low _ _)

theorem nib4_encodeR (op : Nibble) (x y : Reg) (low : Nibble) : nib4 (encodeR op x y low) = low :=
  extract_low (op ++ BitVec.ofFin (w := 4) x ++ BitVec.ofFin (w := 4) y) low

theorem encodeD_eq (op : Nibble) (x y : Reg) (n : Fin 16) :
    encodeD op x y n = encodeR op x y (BitVec.ofFin (w := 4) n) := rfl

theorem nib1_encodeD (op : Nibble) (x y : Reg) (n : Fin 16) : nib1 (encodeD op x y n) = op := nib1_encodeR op x y _

theorem fieldX_encodeD (op : Nibble) (x y : Reg) (n : Fin 16) : fieldX (encodeD op x y n) = x := fieldX_encodeR op x y _

theorem fieldY_encodeD (op : Nibble) (x y : Reg) (n : Fin 16) : fieldY (encodeD op x y n) = y := fieldY_encodeR op x y _

theorem fieldN_encodeD (op : Nibble) (x y : Reg) (n : Fin 16) : fieldN (encodeD op x y n) = n :=
  congrArg BitVec.toFin (nib4_encodeR op x y (BitVec.ofFin (w := 4) n))

theorem and_encodeR (op : Nibble) (x y : Reg) (low : Nibble) : encodeR op x y low &&& 0xF00F = encodeR op 0 0 low := by
  refine (BitVec.and_append (x₁ := op ++ BitVec.ofFin (w := 4) x ++ BitVec.ofFin (w := 4) y) (y₁ := low)
    (x₂ := 0xF#4 ++ 0#4 ++ 0#4) (y₂ := 0xF#4)).trans ?_
  rw [show low &&& 0xF#4 = low from BitVec.and_allOnes, BitVec.and_append, BitVec.and_append, BitVec.and_zero,
    BitVec.and_zero, show op &&& 0xF#4 = op from BitVec.and_allOnes]
  rfl

theorem and_encodeD (op : Nibble) (x y : Reg) (n : Fin 16) : encodeD op x y n &&& 0xF000 = encodeD op 0 0 0 := by
  refine (BitVec.and_append (x₁ := op ++ BitVec.ofFin (w := 4) x ++ BitVec.ofFin (w := 4) y)
    (y₁ := BitVec.ofFin (w := 4) n) (x₂ := 0xF#4 ++ 0#4 ++ 0#4) (y₂ := 0#4)).trans ?_
  rw [BitVec.and_zero, BitVec.and_append, BitVec.and_append, BitVec.and_zero,
    BitVec.and_zero, show op &&& 0xF#4 = op from BitVec.and_allOnes]
  rfl

/-! ### Words and bytes -/

theorem highByte_wordOfBytes (hi lo : Byte) : highByte (wordOfBytes hi lo) = hi := extract_high hi lo

theorem lowByte_wordOfBytes (hi lo : Byte) : lowByte (wordOfBytes hi lo) = lo := extract_low hi lo

theorem wordOfBytes_bytes (w : Word) : wordOfBytes (highByte w) (lowByte w) = w := by
  apply BitVec.eq_of_toNat_eq
  simp only [wordOfBytes, highByte, lowByte, BitVec.toNat_append, BitVec.extractLsb'_toNat]
  have := w.isLt
  rw [Nat.shiftLeft_eq, Nat.shiftRight_zero, Nat.shiftRight_eq_div_pow, ← Nat.shiftLeft_eq,
    ← Nat.shiftLeft_add_eq_or_of_lt (by omega), Nat.shiftLeft_eq]
  omega

end Sys2Proof
end

