-- ==== Sys2Proof/Laws/Memory.lean ====
section
/-! SUPPORT. Memory: a read after a write, and that every operation keeps the canonical form (20_memory.md R62). -/

namespace Sys2Proof.Machine

theorem Memory.wf_nil : Memory.wf [] := ⟨List.Pairwise.nil, fun _ h => nomatch h⟩

/-- An unlisted address below 80 reads as its font byte. -/
theorem Memory.unlisted_font {a : Nat} (h : a < 80) : Memory.unlisted a = Config.font a :=
  if_pos ⟨Nat.zero_le a, (Nat.zero_add 80).symm ▸ h⟩

/-- An unlisted address from 80 on reads as 0. -/
theorem Memory.unlisted_zero {a : Nat} (h : 80 ≤ a) : Memory.unlisted a = 0 :=
  if_neg fun e => Nat.not_lt.mpr h (Nat.zero_add 80 ▸ e.2)

theorem Memory.get_filter_self (m : Memory) (a : Nat) :
    Memory.get (m.filter (fun c => c.1 ≠ a)) a = Memory.unlisted a := by
  induction m with
  | nil => rfl
  | cons c m ih =>
    by_cases h : c.1 = a
    · simpa [h] using ih
    · simpa [h, Memory.get] using ih

theorem Memory.get_filter_ne (m : Memory) {a b : Nat} (h : b ≠ a) :
    Memory.get (m.filter (fun c => c.1 ≠ a)) b = Memory.get m b := by
  induction m with
  | nil => rfl
  | cons c m ih =>
    by_cases hc : c.1 = a
    · have : c.1 ≠ b := fun e => h (e.symm.trans hc)
      simpa [hc, Memory.get, this, h.symm] using ih
    · by_cases hb : c.1 = b
      · simp [Memory.get, hb, h]
      · simpa [hc, Memory.get, hb] using ih

theorem Memory.get_insertCell_self (m : Memory) (a : Nat) (b : Byte) (hm : ∀ c ∈ m, c.1 ≠ a) :
    Memory.get (Memory.insertCell a b m) a = b := by
  induction m with
  | nil => simp [Memory.insertCell, Memory.get]
  | cons c m ih =>
    by_cases h : a < c.1
    · simp [Memory.insertCell, h, Memory.get]
    · have hc : c.1 ≠ a := hm c (by simp)
      simpa [Memory.insertCell, h, Memory.get, hc] using ih fun d hd => hm d (by simp [hd])

theorem Memory.get_insertCell_ne (m : Memory) {a e : Nat} (b : Byte) (h : e ≠ a) :
    Memory.get (Memory.insertCell a b m) e = Memory.get m e := by
  induction m with
  | nil => simp [Memory.insertCell, Memory.get, h.symm]
  | cons c m ih =>
    by_cases hc : a < c.1
    · simp [Memory.insertCell, hc, Memory.get, h.symm]
    · simp [Memory.insertCell, hc, Memory.get, ih]

/-- A read after a write to the same address gives the byte written. -/
theorem Memory.get_put_self (m : Memory) {a : Nat} (h : a < 4096) (b : Byte) : (m.put a b).get a = b := by
  by_cases hb : b = Memory.unlisted a
  · rw [Memory.put, if_pos h, if_pos hb, Memory.get_filter_self, hb]
  · rw [Memory.put, if_pos h, if_neg hb]
    exact Memory.get_insertCell_self _ _ _ (by simp)

/-- A write leaves every other address alone. -/
theorem Memory.get_put_ne (m : Memory) {a e : Nat} (h : e ≠ a) (b : Byte) : (m.put a b).get e = m.get e := by
  unfold Memory.put
  split
  · split
    · exact Memory.get_filter_ne m h
    · rw [Memory.get_insertCell_ne _ _ h, Memory.get_filter_ne m h]
  · rfl

theorem Memory.mem_insertCell (m : Memory) (a : Nat) (b : Byte) (c : Host.Cell) :
    c ∈ Memory.insertCell a b m ↔ c = (a, b) ∨ c ∈ m := by
  induction m with
  | nil => simp [Memory.insertCell]
  | cons d m ih =>
    by_cases h : a < d.1
    · simp [Memory.insertCell, h]
    · simp only [Memory.insertCell, h, if_false, List.mem_cons, ih]
      tauto

theorem Memory.rising_insertCell (m : Memory) (a : Nat) (b : Byte)
    (hm : m.Pairwise (fun c d => c.1 < d.1)) (ha : ∀ c ∈ m, c.1 ≠ a) :
    (Memory.insertCell a b m).Pairwise (fun c d => c.1 < d.1) := by
  induction m with
  | nil => simp [Memory.insertCell]
  | cons c m ih =>
    rw [List.pairwise_cons] at hm
    by_cases h : a < c.1
    · rw [Memory.insertCell, if_pos h, List.pairwise_cons, List.pairwise_cons]
      refine ⟨fun d hd => ?_, hm⟩
      rcases List.mem_cons.mp hd with rfl | hd
      · exact h
      · exact h.trans (hm.1 d hd)
    · rw [Memory.insertCell, if_neg h, List.pairwise_cons]
      refine ⟨fun d hd => ?_, ih hm.2 fun d hd => ha d (by simp [hd])⟩
      have hc : c.1 ≠ a := ha c (by simp)
      rcases (Memory.mem_insertCell m a b d).mp hd with rfl | hd
      · change c.1 < a
        omega
      · exact hm.1 d hd

/-- A write keeps the canonical form. -/
theorem Memory.wf_put {m : Memory} (hm : m.wf) (a : Nat) (b : Byte) : (m.put a b).wf := by
  unfold Memory.put
  split
  · next h =>
    have hf : Memory.wf (m.filter (fun c => c.1 ≠ a)) :=
      ⟨hm.1.filter _, fun c hc => hm.2 c (List.mem_of_mem_filter hc)⟩
    split
    · exact hf
    · next hb =>
      refine ⟨Memory.rising_insertCell _ a b hf.1 (by simp), fun c hc => ?_⟩
      rcases (Memory.mem_insertCell _ a b c).mp hc with rfl | hc
      · exact ⟨h, hb⟩
      · exact hf.2 c hc
  · exact hm

/-- Writing a list of bytes keeps the canonical form. -/
theorem Memory.wf_putBytes {m : Memory} (hm : m.wf) (a : Nat) (bs : List Byte) : (m.putBytes a bs).wf := by
  induction bs generalizing m a with
  | nil => exact hm
  | cons b bs ih => exact ih (Memory.wf_put hm a b) (a + 1)

/-- Whatever list it is given, `canonical` answers a memory in the canonical form. -/
theorem Memory.wf_canonical (m : Memory) : (Memory.canonical m).wf := by
  suffices h : ∀ (l acc : Memory), acc.wf → (l.foldl (fun acc c => Memory.put acc c.1 c.2) acc).wf from
    h m [] Memory.wf_nil
  intro l
  induction l with
  | nil => exact fun acc h => h
  | cons c l ih => exact fun acc h => ih _ (Memory.wf_put h c.1 c.2)

/-- An address outside the bytes written reads as before. -/
theorem Memory.get_putBytes_outside (m : Memory) (a : Nat) (bs : List Byte) {e : Nat}
    (h : e < a ∨ a + bs.length ≤ e) : (m.putBytes a bs).get e = m.get e := by
  induction bs generalizing m a with
  | nil => rfl
  | cons b bs ih =>
    rw [List.length_cons] at h
    rw [Memory.putBytes, ih _ _ (by omega), Memory.get_put_ne _ (by omega)]

/-- The `j`-th address written reads as the `j`-th byte. -/
theorem Memory.get_putBytes_inside (m : Memory) (a : Nat) (bs : List Byte) {j : Nat} (hj : j < bs.length)
    (h : a + bs.length ≤ 4096) : (m.putBytes a bs).get (a + j) = bs[j] := by
  induction bs generalizing m a j with
  | nil => simp at hj
  | cons b bs ih =>
    rw [List.length_cons] at h hj
    cases j with
    | zero =>
      rw [Memory.putBytes, Memory.get_putBytes_outside _ _ _ (by omega)]
      exact Memory.get_put_self m (by omega) b
    | succ j =>
      have := ih (m.put a b) (a + 1) (j := j) (by omega) (by omega)
      rw [show a + (j + 1) = a + 1 + j by omega]
      simpa [Memory.putBytes] using this

end Sys2Proof.Machine
end

