-- ==== Sys2Proof/Laws/Ops.lean ====
section
/-! SUPPORT. One lemma per shared operation that says everything it can do. -/

namespace Sys2Proof.Machine

/-! ### Skips -/

theorem State.skipIf_eq (s : State) (c : Bool) :
    s.skipIf c = { s with pc := if c then s.pc + 2#16 else s.pc } := by
  cases c <;> rfl

/-! ### The call stack -/

/-- What a push does: it fails exactly on a full stack. -/
theorem State.push_eq (s : State) (w : Word) :
    (s.sp.val = 16 ∧ s.push w = none) ∨
      ∃ h : s.sp.val < 16,
        s.push w = some { s with stack := s.stack.set s.sp.val w h, sp := ⟨s.sp.val + 1, by omega⟩ } := by
  by_cases h : s.sp.val < 16
  · exact .inr ⟨h, by simp [State.push, h]⟩
  · exact .inl ⟨by omega, by simp [State.push, h]⟩

/-- What a pop does: it fails exactly on an empty stack. -/
theorem State.pop_eq (s : State) :
    (s.sp.val = 0 ∧ s.pop = none) ∨
      ∃ h : 0 < s.sp.val,
        s.pop = some (s.stack[s.sp.val - 1], { s with sp := ⟨s.sp.val - 1, by omega⟩ }) := by
  rcases s with ⟨v, i, pc, stack, ⟨n, hn⟩, dt, st, d, k, f, m, c⟩
  cases n with
  | zero => exact .inl ⟨rfl, rfl⟩
  | succ n => exact .inr ⟨Nat.succ_pos n, rfl⟩

/-! ### Faults -/

@[simp] theorem State.takeFault_fault (s : State) (f : Fault) : (s.takeFault f).fault = some f := rfl

@[simp] theorem State.takeFault_draws (s : State) (f : Fault) : (s.takeFault f).draws = s.draws + 1 := rfl

theorem State.takeFault_wf (s : State) (f : Fault) : (s.takeFault f).mem.wf := Memory.wf_canonical _

/-! ### The range check -/

theorem State.rangeBad_iff (s : State) (n : Nat) : s.rangeBad n = true ↔ 1 ≤ n ∧ 4096 < s.i.toNat + n := by
  simp [State.rangeBad]

/-- What an access does: the fault exactly when its range leaves memory, else the state given. -/
theorem accessing_eq (n : Nat) (s t : State) :
    ((1 ≤ n ∧ 4096 < s.i.toNat + n) ∧ accessing n s t = raise (.memOutOfRange (max s.i.toNat 4096)) s) ∨
      (¬(1 ≤ n ∧ 4096 < s.i.toNat + n) ∧ accessing n s t = .next t) := by
  by_cases h : 1 ≤ n ∧ 4096 < s.i.toNat + n
  · exact .inl ⟨h, by simp [accessing, (s.rangeBad_iff n).mpr h]⟩
  · refine .inr ⟨h, ?_⟩
    have : s.rangeBad n = false := by
      rw [Bool.eq_false_iff]
      exact fun e => h ((s.rangeBad_iff n).mp e)
    simp [accessing, this]

/-! ### Register ranges -/

theorem mem_upTo (x k : Fin 16) : k ∈ upTo x ↔ k.val ≤ x.val := by
  revert x k
  decide

theorem upTo_length (x : Fin 16) : (upTo x).length = x.val + 1 := by
  revert x
  decide

theorem upTo_getElem (x : Fin 16) (j : Nat) (h : j < (upTo x).length) : ((upTo x)[j]).val = j := by
  have hx : ∀ (x : Fin 16) (j : Fin 16) (h : j.val < (upTo x).length), ((upTo x)[j.val]).val = j.val := by decide
  have hj : j < 16 := by
    rw [upTo_length] at h
    omega
  exact hx x ⟨j, hj⟩ h

/-- A fold of register writes writes exactly the registers of its list; nothing else changes. -/
theorem foldl_setV (f : Reg → Byte) (l : List Reg) (s : State) :
    ∃ v, l.foldl (fun t k => t.setV k (f k)) s = { s with v := v } ∧
      ∀ k : Reg, v[k] = if k ∈ l then f k else s.getV k := by
  induction l generalizing s with
  | nil => exact ⟨s.v, rfl, fun k => by simp [State.getV]⟩
  | cons j l ih =>
    obtain ⟨v, hv, hk⟩ := ih (s.setV j (f j))
    refine ⟨v, hv, fun k => ?_⟩
    rw [hk k, State.getV_setV]
    by_cases h : k ∈ l
    · simp [h]
    · by_cases hj : k = j
      · simp [hj]
      · simp [h, hj]

/-- LD Vx, [I] changes the registers `0..x` and nothing else. -/
theorem State.loadRegisters_eq (s : State) (x : Reg) :
    ∃ v, s.loadRegisters x = { s with v := v } ∧
      ∀ k : Reg, v[k] = if k.val ≤ x.val then s.mem.get (s.i.toNat + k.val) else s.getV k := by
  obtain ⟨v, hv, hk⟩ := foldl_setV (fun k => s.mem.get (s.ea k.val)) (upTo x) s
  exact ⟨v, hv, fun k => by simpa [mem_upTo, State.ea] using hk k⟩

theorem State.registersUpTo_length (s : State) (x : Reg) : (s.registersUpTo x).length = x.val + 1 := by
  simp [State.registersUpTo, upTo_length]

theorem State.registersUpTo_getElem (s : State) (x : Reg) (j : Nat) (h : j < (s.registersUpTo x).length) :
    (s.registersUpTo x)[j] = s.getV ⟨j, by rw [State.registersUpTo_length] at h; omega⟩ := by
  have h' : j < (upTo x).length := by simpa [State.registersUpTo] using h
  simp only [State.registersUpTo, List.getElem_map]
  congr 1
  exact Fin.ext (upTo_getElem x j h')

/-! ### Keys -/

theorem keyOf_eq (b : Byte) :
    (15 < b.toNat ∧ keyOf b = none) ∨ ∃ h : b.toNat < 16, keyOf b = some ⟨b.toNat, h⟩ := by
  by_cases h : b.toNat < 16
  · exact .inr ⟨h, by simp [keyOf, h]⟩
  · exact .inl ⟨by omega, by simp [keyOf, h]⟩

theorem mem_indices16 (k : Fin 16) : k ∈ indices16 := by
  revert k
  decide

/-- The key scan: no key is down, or the answer is the least key that is down. -/
theorem State.firstKey_eq (s : State) :
    (s.firstKey = none ∧ ∀ k, s.keyDown k = false) ∨
      ∃ k, s.firstKey = some k ∧ s.keyDown k = true ∧ ∀ j, j.val < k.val → s.keyDown j = false := by
  cases h : s.firstKey with
  | none =>
    refine .inl ⟨rfl, fun k => ?_⟩
    have := (List.find?_eq_none.mp h) k (mem_indices16 k)
    simpa using this
  | some k =>
    refine .inr ⟨k, rfl, List.find?_some h, fun j hj => ?_⟩
    obtain ⟨_, as, bs, hl, has⟩ := List.find?_eq_some_iff_append.mp h
    have hsort : indices16.Pairwise (fun a b => a.val < b.val) := by decide
    have hmem : j ∈ as ++ k :: bs := hl ▸ mem_indices16 j
    rw [hl, List.pairwise_append, List.pairwise_cons] at hsort
    rcases List.mem_append.mp hmem with hj' | hj'
    · simpa using has j hj'
    · rcases List.mem_cons.mp hj' with rfl | hj'
      · omega
      · have := hsort.2.1.1 j hj'
        omega

end Sys2Proof.Machine
end

