-- ==== Sys2Proof/Laws/Display.lean ====
section
/-! SUPPORT. The display: what one toggle, one plotted pixel and one sprite do, and that a bitmap is its pixels
(44_display.md). -/

namespace Sys2Proof.Machine

/-- A toggle flips its own pixel and leaves every other alone. -/
theorem Display.pixel_toggle (d : Display) (px qx : Fin 64) (py qy : Fin 32) :
    (d.toggle px py).pixel qx qy = (d.pixel qx qy ^^ decide (qx = px ∧ qy = py)) := by
  simp only [Display.pixel, Display.toggle, Fin.getElem_fin, Vector.getElem_set]
  by_cases hy : py = qy
  · subst hy
    by_cases hx : px = qx
    · subst hx
      simp
    · have : qx.val ≠ px.val := fun e => hx (Fin.ext e.symm)
      simp [this, Ne.symm hx]
  · have : py.val ≠ qy.val := fun e => hy (Fin.ext e)
    simp [this, Ne.symm hy]

/-- Two bitmaps with the same pixels are one. -/
theorem Display.ext_pixel {d e : Display} (h : ∀ px py, d.pixel px py = e.pixel px py) : d = e := by
  refine Vector.ext fun y hy => BitVec.eq_of_getLsbD_eq fun x hx => ?_
  exact h ⟨x, hx⟩ ⟨y, hy⟩

@[simp] theorem Display.pixel_clear (px : Fin 64) (py : Fin 32) : Display.clear.pixel px py = false := by
  simp [Display.clear, Display.pixel]

/-- `D[i]` is pixel (`i mod 64`, `i div 64`) (10_state.md R32). -/
theorem Display.bit_eq (d : Display) (px : Fin 64) (py : Fin 32) :
    d.bit ⟨64 * py.val + px.val, by omega⟩ = d.pixel px py := by
  have hx : wrapColumn (64 * py.val + px.val) = px := Fin.ext (by simp only [wrapColumn]; omega)
  have hy : (64 * py.val + px.val) / 64 = py.val := by omega
  simp only [Display.bit, hx, hy]

/-- One plotted pixel: the pixel is toggled, and the collision flag is set if it was on. -/
theorem Canvas.plot_eq (c : Canvas) (px : Fin 64) (py : Fin 32) :
    c.plot px py = (c.1.toggle px py, c.2 || c.1.pixel px py) := rfl

/-! ### A whole sprite -/

/-- Plotting at distinct places: each plotted pixel is toggled once, and the flag says whether one of them was on. -/
theorem Canvas.foldl_plot {ι : Type} (on : ι → Bool) (place : ι → Fin 64 × Fin 32) (l : List ι) (h : (l.map place).Nodup)
    (c : Canvas) :
    (∀ px py, (l.foldl (fun c i => if on i then c.plot (place i).1 (place i).2 else c) c).1.pixel px py =
      (c.1.pixel px py ^^ decide (∃ i ∈ l, on i = true ∧ place i = (px, py)))) ∧
    (l.foldl (fun c i => if on i then c.plot (place i).1 (place i).2 else c) c).2 =
      (c.2 || decide (∃ i ∈ l, on i = true ∧ c.1.pixel (place i).1 (place i).2 = true)) := by
  induction l generalizing c with
  | nil => simp
  | cons j l ih =>
    rw [List.map_cons, List.nodup_cons] at h
    obtain ⟨ih1, ih2⟩ := ih h.2 (if on j then c.plot (place j).1 (place j).2 else c)
    rw [List.foldl_cons, ih2]
    by_cases hj : on j = true
    · have hfresh : ∀ i ∈ l, place i ≠ place j := fun i hi e => h.1 (e ▸ List.mem_map_of_mem hi)
      refine ⟨fun px py => ?_, ?_⟩
      · rw [ih1, if_pos hj, Canvas.plot_eq, Display.pixel_toggle, Bool.xor_assoc]
        congr 1
        by_cases hp : place j = (px, py)
        · have : ¬∃ i ∈ l, on i = true ∧ place i = (px, py) := fun ⟨i, hi, _, e⟩ => hfresh i hi (e.trans hp.symm)
          simp [hj, hp, this]
        · have : ¬(px = (place j).1 ∧ py = (place j).2) := fun ⟨e, e'⟩ => hp (by rw [e, e'])
          simp [hj, hp, this]
      · have hsame : ∀ i ∈ l, (c.1.toggle (place j).1 (place j).2).pixel (place i).1 (place i).2 =
            c.1.pixel (place i).1 (place i).2 := fun i hi => by
          rw [Display.pixel_toggle]
          have : ¬((place i).1 = (place j).1 ∧ (place i).2 = (place j).2) := fun ⟨e, e'⟩ => hfresh i hi (Prod.ext e e')
          simp [this]
        have hex : (∃ i ∈ l, on i = true ∧ (c.1.toggle (place j).1 (place j).2).pixel (place i).1 (place i).2 = true) ↔
            ∃ i ∈ l, on i = true ∧ c.1.pixel (place i).1 (place i).2 = true :=
          exists_congr fun i => and_congr_right fun hi => by rw [hsame i hi]
        rw [if_pos hj, Canvas.plot_eq]
        simp only [hex, Bool.or_assoc]
        congr 1
        simp [hj]
    · refine ⟨fun px py => ?_, ?_⟩
      · rw [ih1]
        simp [hj]
      · simp [hj]

/-- The cells of a sprite of `n` rows, in the order of the draw loop: row, then column. -/
def spriteCells (n : Nat) : List (Nat × Nat) := (List.range n).flatMap fun row => (List.range 8).map fun col => (row, col)

theorem mem_spriteCells (n row col : Nat) : (row, col) ∈ spriteCells n ↔ row < n ∧ col < 8 := by
  simp only [spriteCells, List.mem_flatMap, List.mem_map, List.mem_range, Prod.mk.injEq]
  constructor
  · rintro ⟨r, hr, c, hc, rfl, rfl⟩
    exact ⟨hr, hc⟩
  · rintro ⟨hr, hc⟩
    exact ⟨row, hr, col, hc, rfl, rfl⟩

theorem spriteCells_nodup (n : Nat) : (spriteCells n).Nodup := by
  rw [spriteCells, List.nodup_flatMap]
  refine ⟨fun row _ => List.nodup_range.map fun a b e => (Prod.ext_iff.mp e).2, ?_⟩
  refine (List.nodup_range (n := n)).imp fun {a b} hab p ha hb => ?_
  simp only [List.mem_map] at ha hb
  obtain ⟨_, _, rfl⟩ := ha
  obtain ⟨_, _, e⟩ := hb
  exact hab (Prod.ext_iff.mp e).1.symm

/-- The draw loop as one pass over the sprite's cells. -/
theorem Canvas.drawSprite_eq (c : Canvas) (m : Memory) (base vx vy n : Nat) :
    c.drawSprite m base vx vy n = (spriteCells n).foldl (fun c i =>
      if (m.get (base + i.1)).getLsbD (7 - i.2) then c.plot (wrapColumn (vx + i.2)) (wrapRow (vy + i.1)) else c) c := by
  simp only [Canvas.drawSprite, Canvas.drawRow, spriteCells, List.foldl_flatMap, List.foldl_map]

/-- No two cells of one sprite fall on one pixel: at most 8 columns of 64, at most 15 rows of 32 (44_display.md R153). -/
theorem spriteCells_apart (vx vy : Nat) (n : Fin 16) :
    ((spriteCells n.val).map fun i => (wrapColumn (vx + i.2), wrapRow (vy + i.1))).Nodup := by
  refine List.Nodup.map_on (fun a ha b hb e => ?_) (spriteCells_nodup n.val)
  obtain ⟨ha1, ha2⟩ := (mem_spriteCells n.val a.1 a.2).mp ha
  obtain ⟨hb1, hb2⟩ := (mem_spriteCells n.val b.1 b.2).mp hb
  have := n.isLt
  simp only [wrapColumn, wrapRow, Prod.mk.injEq, Fin.mk.injEq] at e
  exact Prod.ext (by omega) (by omega)

/-- A sprite's draw, said through `State.Covers`: the covered pixels are toggled, and the flag says whether one of them was
on (44_display.md R152). -/
theorem State.sprite_eq (s : State) (x y : Reg) (n : Fin 16) :
    (∀ px py, s.Covers x y n px py → (s.sprite x y n).1.pixel px py = !s.display.pixel px py) ∧
    (∀ px py, ¬s.Covers x y n px py → (s.sprite x y n).1.pixel px py = s.display.pixel px py) ∧
    ((s.sprite x y n).2 = true ↔ ∃ px py, s.Covers x y n px py ∧ s.display.pixel px py = true) := by
  have hc : ∀ px py, (∃ i ∈ spriteCells n.val, (s.mem.get (s.ea 0 + i.1)).getLsbD (7 - i.2) = true ∧
      (wrapColumn ((s.getV x).toNat + i.2), wrapRow ((s.getV y).toNat + i.1)) = (px, py)) ↔ s.Covers x y n px py := by
    intro px py
    constructor
    · rintro ⟨⟨row, col⟩, hi, hb, e⟩
      obtain ⟨h1, h2⟩ := (mem_spriteCells n.val row col).mp hi
      obtain ⟨rfl, rfl⟩ := Prod.mk.injEq .. ▸ e
      exact ⟨row, h1, col, h2, hb, rfl, rfl⟩
    · rintro ⟨row, h1, col, h2, hb, e1, e2⟩
      exact ⟨(row, col), (mem_spriteCells n.val row col).mpr ⟨h1, h2⟩, hb, Prod.ext (Fin.ext e1.symm) (Fin.ext e2.symm)⟩
  obtain ⟨h1, h2⟩ := Canvas.foldl_plot (fun i : Nat × Nat => (s.mem.get (s.ea 0 + i.1)).getLsbD (7 - i.2))
    (fun i => (wrapColumn ((s.getV x).toNat + i.2), wrapRow ((s.getV y).toNat + i.1))) (spriteCells n.val)
    (spriteCells_apart _ _ n) (s.display, false)
  rw [← Canvas.drawSprite_eq] at h1 h2
  refine ⟨fun px py h => ?_, fun px py h => ?_, ?_⟩
  · rw [State.sprite, h1, decide_eq_true ((hc px py).mpr h), Bool.xor_true]
  · rw [State.sprite, h1, decide_eq_false fun e => h ((hc px py).mp e), Bool.xor_false]
  · rw [State.sprite, h2, Bool.false_or, decide_eq_true_iff]
    constructor
    · rintro ⟨i, hi, hb, hp⟩
      exact ⟨_, _, (hc _ _).mp ⟨i, hi, hb, rfl⟩, hp⟩
    · rintro ⟨px, py, h, hp⟩
      obtain ⟨i, hi, hb, e⟩ := (hc px py).mpr h
      exact ⟨i, hi, hb, by rw [e]; exact hp⟩

end Sys2Proof.Machine
end

