-- ==== Sys2Proof/Laws/PerInstr.lean ====
section
/-! SUPPORT. Statements about every instruction as syntax, one lemma per constructor. Family EncodeRow: the encoded word of
an instruction is admitted by the instruction's own row of the opcode map (30_encoding.md R72, R75): the encoder, written
from the formats, and the table of masks and matches agree. -/

namespace Sys2Proof.Laws.EncodeRow

/-- The word of `i` satisfies `w and mask = match` for the row of `i` (30_encoding.md R74, R75). -/
def Statement (i : Instr) : Prop := i.row.admits (encode i) = true

theorem nop : Statement .nop := rfl

theorem cls : Statement .cls := rfl

theorem ret : Statement .ret := rfl

theorem jp (nnn : Addr12) : Statement (.jp nnn) :=
  beq_iff_eq.mpr (and_encodeA 0x1 nnn)

theorem call (nnn : Addr12) : Statement (.call nnn) :=
  beq_iff_eq.mpr (and_encodeA 0x2 nnn)

theorem seImm (x : Reg) (kk : Byte) : Statement (.seImm x kk) :=
  beq_iff_eq.mpr (and_encodeI 0x3 x kk)

theorem sneImm (x : Reg) (kk : Byte) : Statement (.sneImm x kk) :=
  beq_iff_eq.mpr (and_encodeI 0x4 x kk)

theorem seReg (x : Reg) (y : Reg) : Statement (.seReg x y) :=
  beq_iff_eq.mpr (and_encodeR 0x5 x y 0x0)

theorem ldImm (x : Reg) (kk : Byte) : Statement (.ldImm x kk) :=
  beq_iff_eq.mpr (and_encodeI 0x6 x kk)

theorem addImm (x : Reg) (kk : Byte) : Statement (.addImm x kk) :=
  beq_iff_eq.mpr (and_encodeI 0x7 x kk)

theorem ldReg (x : Reg) (y : Reg) : Statement (.ldReg x y) :=
  beq_iff_eq.mpr (and_encodeR 0x8 x y 0x0)

theorem orReg (x : Reg) (y : Reg) : Statement (.orReg x y) :=
  beq_iff_eq.mpr (and_encodeR 0x8 x y 0x1)

theorem andReg (x : Reg) (y : Reg) : Statement (.andReg x y) :=
  beq_iff_eq.mpr (and_encodeR 0x8 x y 0x2)

theorem xorReg (x : Reg) (y : Reg) : Statement (.xorReg x y) :=
  beq_iff_eq.mpr (and_encodeR 0x8 x y 0x3)

theorem addReg (x : Reg) (y : Reg) : Statement (.addReg x y) :=
  beq_iff_eq.mpr (and_encodeR 0x8 x y 0x4)

theorem sub (x : Reg) (y : Reg) : Statement (.sub x y) :=
  beq_iff_eq.mpr (and_encodeR 0x8 x y 0x5)

theorem shr (x : Reg) : Statement (.shr x) :=
  beq_iff_eq.mpr (and_encodeS 0x8 x 0x06)

theorem subn (x : Reg) (y : Reg) : Statement (.subn x y) :=
  beq_iff_eq.mpr (and_encodeR 0x8 x y 0x7)

theorem shl (x : Reg) : Statement (.shl x) :=
  beq_iff_eq.mpr (and_encodeS 0x8 x 0x0E)

theorem sneReg (x : Reg) (y : Reg) : Statement (.sneReg x y) :=
  beq_iff_eq.mpr (and_encodeR 0x9 x y 0x0)

theorem ldI (nnn : Addr12) : Statement (.ldI nnn) :=
  beq_iff_eq.mpr (and_encodeA 0xA nnn)

theorem jpV0 (nnn : Addr12) : Statement (.jpV0 nnn) :=
  beq_iff_eq.mpr (and_encodeA 0xB nnn)

theorem rnd (x : Reg) (kk : Byte) : Statement (.rnd x kk) :=
  beq_iff_eq.mpr (and_encodeI 0xC x kk)

theorem drw (x : Reg) (y : Reg) (n : Fin 16) : Statement (.drw x y n) :=
  beq_iff_eq.mpr (and_encodeD 0xD x y n)

theorem skp (x : Reg) : Statement (.skp x) :=
  beq_iff_eq.mpr (and_encodeS 0xE x 0x9E)

theorem sknp (x : Reg) : Statement (.sknp x) :=
  beq_iff_eq.mpr (and_encodeS 0xE x 0xA1)

theorem ldVxDt (x : Reg) : Statement (.ldVxDt x) :=
  beq_iff_eq.mpr (and_encodeS 0xF x 0x07)

theorem ldVxK (x : Reg) : Statement (.ldVxK x) :=
  beq_iff_eq.mpr (and_encodeS 0xF x 0x0A)

theorem ldDtVx (x : Reg) : Statement (.ldDtVx x) :=
  beq_iff_eq.mpr (and_encodeS 0xF x 0x15)

theorem ldStVx (x : Reg) : Statement (.ldStVx x) :=
  beq_iff_eq.mpr (and_encodeS 0xF x 0x18)

theorem addI (x : Reg) : Statement (.addI x) :=
  beq_iff_eq.mpr (and_encodeS 0xF x 0x1E)

theorem ldF (x : Reg) : Statement (.ldF x) :=
  beq_iff_eq.mpr (and_encodeS 0xF x 0x29)

theorem ldB (x : Reg) : Statement (.ldB x) :=
  beq_iff_eq.mpr (and_encodeS 0xF x 0x33)

theorem ldMemVx (x : Reg) : Statement (.ldMemVx x) :=
  beq_iff_eq.mpr (and_encodeS 0xF x 0x55)

theorem ldVxMem (x : Reg) : Statement (.ldVxMem x) :=
  beq_iff_eq.mpr (and_encodeS 0xF x 0x65)

end Sys2Proof.Laws.EncodeRow
end

