-- ==== Sys2Proof/Laws/Step.lean ====
section
/-! SUPPORT. What fetch, decode and one Step can do, said once (48_host_interface.md R171, 60_exceptions.md R198). -/

namespace Sys2Proof.Machine

/-- The fetch gives the word at `PC`, or its fault when `PC > 4094`. -/
theorem fetchWord_eq (s : State) :
    (s.pc.toNat ≤ 4094 ∧ fetchWord s = .ok (s.mem.fetch16 s.pc.toNat)) ∨
      (4094 < s.pc.toNat ∧ fetchWord s = .error (.fetchOutOfRange s.pc)) := by
  by_cases h : s.pc.toNat + 2 ≤ 4096
  · exact .inl ⟨by omega, by simp [fetchWord, h]⟩
  · exact .inr ⟨by omega, by simp [fetchWord, h]⟩

/-- Every way a Step can go, with the state it answers. -/
theorem step_cases (s : State) :
    (s.fault ≠ none ∧ step s = .next s) ∨
    (s.fault = none ∧ 4094 < s.pc.toNat ∧ step s = .next (s.takeFault (.fetchOutOfRange s.pc))) ∨
    (s.fault = none ∧ s.pc.toNat ≤ 4094 ∧ decodeWord (s.mem.fetch16 s.pc.toNat) = none ∧
      step s = .next (s.takeFault (.decodeFailure (s.mem.fetch16 s.pc.toNat) s.pc))) ∨
    (s.fault = none ∧ s.pc.toNat ≤ 4094 ∧ ∃ i, decodeWord (s.mem.fetch16 s.pc.toNat) = some i ∧
      step s = exec i s.advancePc) := by
  cases hf : s.fault with
  | some f => exact .inl ⟨by simp, by simp [step, hf]⟩
  | none =>
    rcases fetchWord_eq s with ⟨hp, hw⟩ | ⟨hp, hw⟩
    · cases hd : decodeWord (s.mem.fetch16 s.pc.toNat) with
      | none => exact .inr <| .inr <| .inl ⟨rfl, hp, rfl, by simp [step, hf, fetchDecode, hw, hd, raise]⟩
      | some i => exact .inr <| .inr <| .inr ⟨rfl, hp, i, rfl, by simp [step, hf, fetchDecode, hw, hd]⟩
    · exact .inr <| .inl ⟨rfl, hp, by simp [step, hf, fetchDecode, hw, raise]⟩

/-- The advanced program counter as a number, where a fetch is possible. -/
theorem State.advancePc_toNat (s : State) (h : s.pc.toNat ≤ 4094) : s.advancePc.pc.toNat = s.pc.toNat + 2 := by
  simp only [State.advancePc_pc, BitVec.toNat_add, BitVec.toNat_ofNat]
  omega

end Sys2Proof.Machine
end

