-- ==== Sys2Proof/Tests/Slice0.lean ====
section
/-! SUPPORT. Tests. Expected values come from spec/: the bit patterns of 30_encoding.md R75, the examples of the rules and
the vectors of 95_test_vectors.md, whose ids the names and docstrings carry; none is the model's own answer. Then one
witness for each statement of Obligations.lean that has hypotheses: concrete data that meets them all. -/

open Sys2Proof Sys2Proof.Machine

namespace Sys2Proof.Tests

/-! ### Small states -/

/-- The reset state with some registers set. -/
def regs (l : List (Reg × Byte)) : State := l.foldl (fun s p => s.setV p.1 p.2) State.reset

/-- `s` with bytes placed in memory. -/
def holding (a : Nat) (bs : List Byte) (s : State) : State := s.setMem (s.mem.putBytes a bs)

/-- `s` with pixels on. -/
def lit (l : List (Fin 64 × Fin 32)) (s : State) : State :=
  s.setDisplay (l.foldl (fun d p => d.toggle p.1 p.2) s.display)

/-- `s` with the word `w` at its `PC`. -/
def fetching (w : Nat) (s : State) : State := s.withFetchWord 16 w

/-- The state an outcome answers; reset for a fault or a refusal. -/
def after : Host.Outcome State Fault Refusal → State
  | .next t => t
  | _ => State.reset

/-- The state one Step after `w` was placed at the `PC` of `s`. -/
def stepped (w : Nat) (s : State) : State := after (step (fetching w s))

/-- `s` with `sp` return addresses held, the one in slot `slot` being `w`. -/
def stacked (sp : Fin 17) (slot : Fin 16) (w : Word) (s : State) : State :=
  { s with sp := sp, stack := s.stack.set slot.val w slot.isLt }

/-! ### Decoding: every constructor, its word written out bit by bit from the pattern of R75 -/

theorem test_decode_control_flow :
    decodeWord 0b0000000000000000 = some .nop ∧ decodeWord 0b0000000011101110 = some .ret ∧
      decodeWord 0b0001101010111100 = some (.jp 0xABC) ∧ decodeWord 0b0010001100000001 = some (.call 0x301) ∧
      decodeWord 0b1011000111110000 = some (.jpV0 0x1F0) := by decide

theorem test_decode_skips :
    decodeWord 0b0011101000010001 = some (.seImm 10 0x11) ∧ decodeWord 0b0100101000010001 = some (.sneImm 10 0x11) ∧
      decodeWord 0b0101000100100000 = some (.seReg 1 2) ∧ decodeWord 0b1001000100100000 = some (.sneReg 1 2) := by decide

theorem test_decode_loads_and_logic :
    decodeWord 0b0110111110101011 = some (.ldImm 15 0xAB) ∧ decodeWord 0b0111001011111111 = some (.addImm 2 0xFF) ∧
      decodeWord 0b1000000100100000 = some (.ldReg 1 2) ∧ decodeWord 0b1000000100100001 = some (.orReg 1 2) ∧
      decodeWord 0b1000000100100010 = some (.andReg 1 2) ∧ decodeWord 0b1000000100100011 = some (.xorReg 1 2) := by
  decide

theorem test_decode_arithmetic :
    decodeWord 0b1000000100100100 = some (.addReg 1 2) ∧ decodeWord 0b1000000100100101 = some (.sub 1 2) ∧
      decodeWord 0b1000010000000110 = some (.shr 4) ∧ decodeWord 0b1000000100100111 = some (.subn 1 2) ∧
      decodeWord 0b1000010000001110 = some (.shl 4) ∧ decodeWord 0b1100010100111100 = some (.rnd 5 0x3C) := by decide

theorem test_decode_index_and_memory :
    decodeWord 0b1010001011110000 = some (.ldI 0x2F0) ∧ decodeWord 0b1111001100011110 = some (.addI 3) ∧
      decodeWord 0b1111001100101001 = some (.ldF 3) ∧ decodeWord 0b1111001100110011 = some (.ldB 3) ∧
      decodeWord 0b1111001001010101 = some (.ldMemVx 2) ∧ decodeWord 0b1111001001100101 = some (.ldVxMem 2) := by decide

theorem test_decode_display :
    decodeWord 0b0000000011100000 = some .cls ∧ decodeWord 0b1101111100010101 = some (.drw 15 1 5) ∧
      decodeWord 0b1101000000010000 = some (.drw 0 1 0) := by decide

theorem test_decode_keys_and_timers :
    decodeWord 0b1110001010011110 = some (.skp 2) ∧ decodeWord 0b1110001010100001 = some (.sknp 2) ∧
      decodeWord 0b1111011000000111 = some (.ldVxDt 6) ∧ decodeWord 0b1111010100001010 = some (.ldVxK 5) ∧
      decodeWord 0b1111011000010101 = some (.ldDtVx 6) ∧ decodeWord 0b1111011000011000 = some (.ldStVx 6) := by decide

/-- S10: the source's own bytes, and the order in which a table word's bytes are stored. -/
theorem test_decode_source_bytes :
    decode [0x80, 0x14, 0xFF] = .ok (.addReg 0 1, [0xFF]) ∧ decodeTableWord 16 0x600A = some (.ldImm 0 0x0A) ∧
      decode [0x60] = .error .tooShort := by decide

/-! ### Well-formedness: one ill-formed word for each kind of check, refused -/

/-- Class 0, exact words only: T102, T103, T104 and the words beside CLS and RET (R78). -/
theorem test_wellformed_class_0 :
    [0x0001#16, 0x00E1#16, 0x0123#16, 0x00DF#16, 0x00EF#16].all (fun w => !legalWord w && decodeWord w == none) = true := by
  decide

/-- The low nibble of classes 5 and 9: T105, T109. -/
theorem test_wellformed_low_nibble :
    [0x5121#16, 0x9121#16, 0x512F#16, 0x912F#16].all (fun w => !legalWord w && decodeWord w == none) = true := by decide

/-- Class 8: shifts with `y ≠ 0` (T106, T107), and the nibbles with no row (T108). -/
theorem test_wellformed_class_8 :
    [0x8116#16, 0x81FE#16, 0x8128#16, 0x8129#16, 0x812A#16, 0x812B#16, 0x812C#16, 0x812D#16, 0x812F#16].all
      (fun w => !legalWord w && decodeWord w == none) = true := by decide

/-- The low byte of classes E and F: T110 to T113. -/
theorem test_wellformed_low_byte :
    [0xE09F#16, 0xE0A0#16, 0xF000#16, 0xF145#16, 0xFFFF#16, 0xF066#16].all
      (fun w => !legalWord w && decodeWord w == none) = true := by decide

/-- Each row refuses a word one bit away from its match. -/
theorem test_wellformed_rows_refuse :
    opcodeTable.all (fun r => r.admits r.value && !r.admits (r.value ^^^ 0x8000)) = true := by decide

/-! ### Control flow -/

theorem test_nop_T101 : stepped 0x0000 State.reset = { fetching 0x0000 State.reset with pc := 0x202 } := by rfl

theorem test_jp_T203 : (stepped 0x1FFF State.reset).pc = 0xFFF := by decide

theorem test_jp_to_itself_T202 : stepped 0x1200 State.reset = fetching 0x1200 State.reset := by rfl

theorem test_call_T206 :
    let t := stepped 0x2400 (stacked 15 0 0 State.reset)
    t.pc = 0x400 ∧ t.sp = 16 ∧ t.stack[15] = 0x0202 := by decide

theorem test_call_overflow_T207 : (stepped 0x2400 (stacked 16 0 0 State.reset)).fault = some .stackOverflow := by rfl

theorem test_ret_T210 :
    let t := stepped 0x00EE (stacked 16 15 0x0321 State.reset)
    t.pc = 0x321 ∧ t.sp = 15 := by decide

theorem test_ret_underflow_T209 : (stepped 0x00EE State.reset).fault = some .stackUnderflow := by rfl

theorem test_jp_v0_T211 : (stepped 0xBFFF (regs [(0, 0xFF)])).pc = 0x10FE := by decide

/-! ### Skips -/

theorem test_se_imm_T301_T302 :
    (stepped 0x3A00 (regs [(10, 0x00)])).pc = 0x204 ∧ (stepped 0x3A00 (regs [(10, 0x01)])).pc = 0x202 := by decide

theorem test_se_imm_at_the_end_T311 : (stepped 0x3000 (State.reset.setPc 0xFFE)).pc = 0x1002 := by decide

theorem test_sne_imm_T303_T304 :
    (stepped 0x4A00 (regs [(10, 0x01)])).pc = 0x204 ∧ (stepped 0x4A00 (regs [(10, 0x00)])).pc = 0x202 := by decide

theorem test_se_reg_T307_T308 :
    (stepped 0x5F00 (regs [(15, 1), (0, 1)])).pc = 0x204 ∧ (stepped 0x5120 (regs [(1, 7), (2, 8)])).pc = 0x202 := by
  decide

theorem test_sne_reg_T306_T309 :
    (stepped 0x9550 (regs [(5, 0x77)])).pc = 0x202 ∧ (stepped 0x9120 (regs [(1, 7), (2, 8)])).pc = 0x204 := by decide

/-! ### Loads, arithmetic, logic, shifts, random -/

theorem test_ld_imm_T401 : (stepped 0x6FAB State.reset).getV 15 = 0xAB := by decide

theorem test_add_imm_T403 :
    let t := stepped 0x72FF (regs [(2, 0xFF), (15, 1)])
    t.getV 2 = 0xFE ∧ t.getV 15 = 1 := by decide

theorem test_add_imm_T404 : (stepped 0x7F03 (regs [(15, 0xFE)])).getV 15 = 0x01 := by decide

theorem test_ld_reg_R125 :
    let t := stepped 0x8010 (regs [(1, 0x33)])
    t.getV 0 = 0x33 ∧ t.getV 1 = 0x33 := by decide

theorem test_or_T406 :
    let t := stepped 0x8121 (regs [(1, 0xAA), (2, 0x55), (15, 1)])
    t.getV 1 = 0xFF ∧ t.getV 15 = 1 := by decide

theorem test_and_R127 : (stepped 0x8012 (regs [(0, 0xF0), (1, 0x3C)])).getV 0 = 0x30 := by decide

theorem test_xor_R128 : (stepped 0x8013 (regs [(0, 0xF0), (1, 0x3C)])).getV 0 = 0xCC := by decide

theorem test_add_reg_T412 :
    let t := stepped 0x8124 (regs [(1, 0xFF), (2, 0xFF)])
    t.getV 1 = 0xFE ∧ t.getV 15 = 1 := by decide

theorem test_add_reg_vf_T414_T416 :
    (stepped 0x8F14 (regs [(15, 0xF0), (1, 0x20)])).getV 15 = 1 ∧
      (stepped 0x81F4 (regs [(1, 0x10), (15, 1)])).getV 1 = 0x11 ∧
      (stepped 0x81F4 (regs [(1, 0x10), (15, 1)])).getV 15 = 0 := by decide

theorem test_sub_T417_T418 :
    (stepped 0x8125 (regs [(1, 5), (2, 5)])).getV 15 = 1 ∧
      (stepped 0x8125 (regs [(1, 0), (2, 1), (15, 1)])).getV 1 = 0xFF ∧
      (stepped 0x8125 (regs [(1, 0), (2, 1), (15, 1)])).getV 15 = 0 := by decide

theorem test_sub_vf_T421_T422 :
    (stepped 0x8F15 (regs [(15, 9), (1, 3)])).getV 15 = 1 ∧ (stepped 0x8F15 (regs [(15, 3), (1, 9)])).getV 15 = 0 := by
  decide

theorem test_subn_T423_T424 :
    (stepped 0x8127 (regs [(1, 5), (2, 6)])).getV 1 = 1 ∧
      (stepped 0x8127 (regs [(1, 6), (2, 5), (15, 1)])).getV 1 = 0xFF ∧
      (stepped 0x8127 (regs [(1, 6), (2, 5), (15, 1)])).getV 15 = 0 := by decide

theorem test_subn_vf_T426 : (stepped 0x8F17 (regs [(15, 3), (1, 9)])).getV 15 = 1 := by decide

theorem test_shr_T428_T429 :
    (stepped 0x8406 (regs [(4, 0xFE), (15, 1)])).getV 4 = 0x7F ∧
      (stepped 0x8406 (regs [(4, 0xFE), (15, 1)])).getV 15 = 0 ∧
      (stepped 0x8406 (regs [(4, 0xFF)])).getV 15 = 1 := by decide

theorem test_shr_vf_T430 : (stepped 0x8F06 (regs [(15, 0xFF)])).getV 15 = 0 := by decide

theorem test_shl_T432_T433 :
    (stepped 0x840E (regs [(4, 0x80)])).getV 4 = 0 ∧ (stepped 0x840E (regs [(4, 0x80)])).getV 15 = 1 ∧
      (stepped 0x840E (regs [(4, 0x7F), (15, 1)])).getV 4 = 0xFE ∧
      (stepped 0x840E (regs [(4, 0x7F), (15, 1)])).getV 15 = 0 := by decide

theorem test_shl_vf_T435_T436 :
    (stepped 0x8F0E (regs [(15, 0xFF)])).getV 15 = 2 ∧ (stepped 0x8F0E (regs [(15, 0x7F)])).getV 15 = 0 := by decide

/-- T437, T438, T439, the draw given as the vectors give it. -/
theorem test_rnd_with_a_draw :
    (rndWith 0xFF 5 0x00 (regs [(5, 0x33)])).getV 5 = 0 ∧ (rndWith 0x5A 5 0xFF State.reset).getV 5 = 0x5A ∧
      (rndWith 0xA7 5 0x3C State.reset).getV 5 = 0x24 := by decide

/-- R135: a Step of RND uses one draw, and with `kk = 0` the result is 0 whatever the draw. -/
theorem test_rnd_step : (stepped 0xC500 State.reset).draws = 1 ∧ (stepped 0xC500 State.reset).getV 5 = 0 :=
  ⟨rfl, BitVec.and_zero⟩

/-! ### Index register and memory -/

theorem test_ld_i_T501 : (stepped 0xAFFF State.reset).i = 0x0FFF := by decide

theorem test_add_i_T502_T504 :
    (stepped 0xF31E ((regs [(3, 1)]).setI 0x0FFF)).i = 0x1000 ∧
      (stepped 0xF31E ((regs [(3, 0xFF)]).setI 0xFF80)).i = 0x007F ∧
      (stepped 0xF31E ((regs [(3, 0xFF)]).setI 0xFF80)).getV 15 = 0 := by decide

theorem test_ld_f_T505_T507 :
    (stepped 0xF329 (regs [(3, 0x0F)])).i = 0x004B ∧ (stepped 0xF329 (regs [(3, 0xFF)])).i = 0x04FB := by decide

theorem test_ld_b_T508 :
    let t := stepped 0xF333 ((regs [(3, 157)]).setI 0x300)
    t.mem.get 0x300 = 1 ∧ t.mem.get 0x301 = 5 ∧ t.mem.get 0x302 = 7 ∧ t.i = 0x300 := by decide +kernel

theorem test_ld_b_out_of_range_T512_T514 :
    (stepped 0xF333 ((regs [(3, 109)]).setI 0x0FFE)).fault = some (.memOutOfRange 0x1000) ∧
      (stepped 0xF333 ((regs [(3, 109)]).setI 0xFFFF)).fault = some (.memOutOfRange 0xFFFF) := ⟨by rfl, by rfl⟩

theorem test_ld_mem_vx_T515 :
    let t := stepped 0xF055 ((regs [(0, 0xAB), (1, 0xCD)]).setI 0x300)
    t.mem.get 0x300 = 0xAB ∧ t.mem.get 0x301 = 0 := by decide +kernel

/-- T524: the instruction overwrites its own bytes. -/
theorem test_ld_mem_vx_T524 :
    let t := stepped 0xF155 ((regs [(0, 0x12), (1, 0x34)]).setI 0x200)
    t.pc = 0x202 ∧ t.mem.fetch16 0x200 = 0x1234 := by decide +kernel

theorem test_ld_vx_mem_T521 :
    let t := stepped 0xF165 (holding 0x300 [0x11, 0x22, 0x33] ((regs [(2, 0x99)]).setI 0x300))
    t.getV 0 = 0x11 ∧ t.getV 1 = 0x22 ∧ t.getV 2 = 0x99 := by decide +kernel

/-- T522: the instruction reads its own bytes, the high one at the lower address. -/
theorem test_ld_vx_mem_T522 :
    let t := stepped 0xF165 (State.reset.setI 0x200)
    t.getV 0 = 0xF1 ∧ t.getV 1 = 0x65 := by decide +kernel

/-! ### Display -/

theorem test_cls_T616 :
    let t := stepped 0x00E0 (lit [(0, 0), (40, 15), (63, 31)] (regs [(15, 1)]))
    t.display = State.reset.display ∧ t.getV 15 = 1 := by decide +kernel

/-- T604: a sprite wraps in both directions, onto the four corners. -/
theorem test_drw_T604 :
    let t := stepped 0xD012 (holding 0x300 [0xC0, 0xC0] ((regs [(0, 63), (1, 31)]).setI 0x300))
    t.display = (lit [(0, 0), (63, 0), (0, 31), (63, 31)] State.reset).display ∧ t.getV 15 = 0 := by decide +kernel

/-- T611 and T605: the old VF is the column; a lit pixel under a 1 bit is a collision. T608 and T615: no row, no access,
whatever `I` holds; one row above memory faults. -/
theorem test_drw_T605_T608_T611_T615 :
    (let t := stepped 0xDF11 (holding 0x300 [0x80] ((regs [(15, 5), (1, 2)]).setI 0x300))
     t.display.bit 133 = true ∧ t.getV 15 = 0) ∧
    (let t := stepped 0xD011 (lit [(0, 0)] (holding 0x300 [0xF0] (State.reset.setI 0x300)))
     t.display = (lit [(1, 0), (2, 0), (3, 0)] State.reset).display ∧ t.getV 15 = 1) ∧
    (let t := stepped 0xD010 ((regs [(15, 1)]).setI 0xFFFF)
     t.getV 15 = 0 ∧ t.fault = none) ∧
    (stepped 0xD001 (State.reset.setI 0x1234)).fault = some (.memOutOfRange 0x1234) :=
  ⟨by decide +kernel, by decide +kernel, by decide, by rfl⟩

/-! ### Keypad and timers -/

theorem test_skp_T701_T702 :
    (stepped 0xE29E ((regs [(2, 0x0F)]).setKeys 0x8000)).pc = 0x204 ∧
      (stepped 0xE29E ((regs [(2, 0x0F)]).setKeys 0x4000)).pc = 0x202 := by decide

theorem test_skp_T703 : (stepped 0xE29E (regs [(2, 0x10)])).fault = some (.keyIndexOutOfRange 16) := by rfl

theorem test_sknp_T705_T706 :
    (stepped 0xE2A1 (regs [(2, 0x00)])).pc = 0x204 ∧ (stepped 0xE2A1 ((regs [(2, 0x00)]).setKeys 1)).pc = 0x202 := by
  decide

theorem test_sknp_T704 :
    (stepped 0xE2A1 ((regs [(2, 0xFF)]).setKeys 0xFFFF)).fault = some (.keyIndexOutOfRange 255) := by rfl

theorem test_ld_vx_k_T707 : stepped 0xF50A State.reset = fetching 0xF50A State.reset := by rfl

theorem test_ld_vx_k_T709 :
    let t := stepped 0xF50A (State.reset.setKeys 0x1018)
    t.pc = 0x202 ∧ t.getV 5 = 3 := by decide

theorem test_ld_vx_dt_T712 :
    let t := stepped 0xF607 (State.reset.setDt 0xFF)
    t.getV 6 = 0xFF ∧ t.dt = 0xFF := by decide

theorem test_ld_dt_vx_T713 : (stepped 0xF615 (regs [(6, 0xFF)])).dt = 0xFF := by decide

theorem test_ld_st_vx_T715 :
    let t := stepped 0xF618 (regs [(6, 1)])
    t.st = 1 ∧ t.dt = 0 := by decide

/-! ### Fetch, faults and the host's operations -/

/-- T114: a word fetched at an odd address. -/
theorem test_odd_fetch_T114 :
    let t := after (step (holding 0x200 [0x00, 0x60, 0x2A] (State.reset.setPc 0x201)))
    t.pc = 0x203 ∧ t.getV 0 = 0x2A := by decide +kernel

/-- T817: the fetch's fault comes before the decode's. -/
theorem test_fetch_fault_T817 :
    (after (step (holding 0xFFF [0xFF] (State.reset.setPc 0xFFF)))).fault = some (.fetchOutOfRange 0x0FFF) := by rfl

/-- T818: the decode's fault comes before any stack check. -/
theorem test_decode_fault_T818 :
    (stepped 0x00EF (stacked 16 0 0 State.reset)).fault = some (.decodeFailure 0x00EF 0x200) := by rfl

/-- The codes of R190. -/
theorem test_fault_codes_R190 :
    [Fault.fetchOutOfRange 0, .decodeFailure 0 0, .stackOverflow, .stackUnderflow, .memOutOfRange 0,
      .keyIndexOutOfRange 0].map Fault.code = [1, 2, 3, 4, 5, 6] := by decide

theorem test_timer_tick_T802_T803 :
    (timerTick State.reset).dt = 0 ∧ (timerTick ((State.reset.setDt 255).setSt 2)).dt = 254 ∧
      (timerTick ((State.reset.setDt 255).setSt 2)).st = 1 := by decide

theorem test_key_set_T805_T807 :
    (after (keySet 5 true State.reset)).keys = 0x0020 ∧
      (after (keySet 5 false (State.reset.setKeys 0x0030))).keys = 0x0010 ∧
      keySet 16 true State.reset = .refused (.keySetIndex 16) := ⟨by decide, by decide, by rfl⟩

/-- T811: a second Load overwrites only its own bytes. -/
theorem test_load_T811 :
    let t := after (load [0x11] (after (load [0xAA, 0xBB, 0xCC] State.reset)))
    t.mem.get 0x200 = 0x11 ∧ t.mem.get 0x201 = 0xBB ∧ t.mem.get 0x202 = 0xCC := by decide +kernel

/-- T810, T816: Load is refused beyond 3584 bytes and on a faulted machine. -/
theorem test_load_T810_T816 :
    load (List.replicate 3585 0) State.reset = .refused (.loadTooLong 3585) ∧
      load [1] (State.reset.takeFault .stackOverflow) = .refused .loadFaulted :=
  ⟨by simp only [load, List.length_replicate]; rfl, by rfl⟩

/-- P1, the source's end-to-end scenario: load six bytes, three Steps, then V0 = 15, VF = 0, PC = 518. -/
theorem test_scenario_S10 :
    (match Session.run [.load [0x60, 0x0A, 0x61, 0x05, 0x80, 0x14], .step, .step, .step] Session.start with
     | .next σ => σ.machine.getV 0 == 15 && σ.machine.getV 15 == 0 && σ.machine.pc == 518
     | _ => false) = true := by decide +kernel

/-! ### Witnesses: concrete data that meets every hypothesis of a statement, at the boundary of each of its clauses

The name after `witness_` is the statement's. -/

/-- The state in which `w` is fetched at 4094, the last address a word is fetched from. -/
def atTheEnd (w : Nat) (s : State) : State := fetching w (s.setPc 4094)

theorem witness_EncodeOfDecodeIsTheWord :
    decodeWord 0xFF65 = some (.ldVxMem 15) ∧ decodeWord 0x0000 = some .nop := by decide

theorem witness_DecodingIsTheOpcodeTable :
    decodeWord 0xDFFF = some (.drw 15 15 15) ∧ decodeWord 0xFFFF = none ∧
      (∀ r ∈ opcodeTable, r.admits 0x8116 = false) ∧
      (atTheEnd 0x8116 State.reset).fault = none ∧ (atTheEnd 0x8116 State.reset).pc.toNat = 4094 ∧
      (atTheEnd 0x8116 State.reset).mem.fetch16 (atTheEnd 0x8116 State.reset).pc.toNat = 0x8116 := by decide +kernel

/-- A faulted machine; `PC` one past the last fetchable word; an illegal and a legal word at the last one. -/
theorem witness_StepFetchesDecodesExecutes :
    (State.reset.takeFault .stackOverflow).fault ≠ none ∧
      ((State.reset.setPc 4095).fault = none ∧ 4094 < (State.reset.setPc 4095).pc.toNat) ∧
      ((atTheEnd 0x00EF State.reset).fault = none ∧ (atTheEnd 0x00EF State.reset).pc.toNat ≤ 4094 ∧
        (0x00EF : Word) = (atTheEnd 0x00EF State.reset).mem.get 4094 ++ (atTheEnd 0x00EF State.reset).mem.get 4095 ∧
        decodeWord 0x00EF = none) ∧
      ((0x00EE : Word) = (atTheEnd 0x00EE State.reset).mem.get 4094 ++ (atTheEnd 0x00EE State.reset).mem.get 4095 ∧
        decodeWord 0x00EE = some .ret) :=
  ⟨by simp [State.takeFault], by decide, by decide +kernel, by decide +kernel⟩

/-- A skip taken from the last address: `PC` goes to 4098. -/
theorem witness_StepLeavesPcAsTabulated :
    ∃ t, (atTheEnd 0x3000 State.reset).fault = none ∧ fetchDecode (atTheEnd 0x3000 State.reset) = .ok (.seImm 0 0) ∧
      step (atTheEnd 0x3000 State.reset) = .next t ∧ t.fault = none ∧ pcAfter (.seImm 0 0) (atTheEnd 0x3000 State.reset) = 4098 :=
  ⟨_, rfl, rfl, rfl, rfl, by decide⟩

theorem witness_EveryInstructionRaisesOnlyItsOwnFault : (stacked 16 0 0 State.reset).fault = none := rfl

theorem witness_FaultedMachineIsFrozenUntilReset :
    (State.reset.takeFault .stackOverflow).fault = some .stackOverflow ∧ 15 < 16 := ⟨rfl, by decide⟩

/-- One state of each kind, and one of none. -/
theorem witness_StepFixesExactlyThreeKindsOfState :
    ((fetching 0x1200 State.reset).fault = none ∧ (fetching 0x1200 State.reset).Ended ∧
      fetchDecode (fetching 0x1200 State.reset) = .ok (.jp 0x200)) ∧
    ((fetching 0xB1F0 (regs [(0, 0x10)])).fault = none ∧
      fetchDecode (fetching 0xB1F0 (regs [(0, 0x10)])) = .ok (.jpV0 0x1F0) ∧
      0x1F0 + ((fetching 0xB1F0 (regs [(0, 0x10)])).getV 0).toNat = (fetching 0xB1F0 (regs [(0, 0x10)])).pc.toNat) ∧
    (fetchDecode (fetching 0xF50A State.reset) = .ok (.ldVxK 5) ∧ ∀ k, (fetching 0xF50A State.reset).keyDown k = false) ∧
    step (fetching 0x0000 State.reset) ≠ .next (fetching 0x0000 State.reset) := by
  refine ⟨⟨rfl, ⟨rfl, rfl⟩, rfl⟩, ⟨rfl, rfl, by decide⟩, ⟨rfl, by decide⟩, fun h => ?_⟩
  have : (stepped 0x0000 State.reset).pc = (fetching 0x0000 State.reset).pc := congrArg (fun o => (after o).pc) h
  exact absurd this (by decide)

/-- The greatest `PC` of the invariant, reached by JP V0, from a state that holds sixteen return addresses. -/
theorem witness_StepKeepsTheInvariant :
    ∃ t, (fetching 0xBFFF (stacked 16 15 4096 (regs [(0, 0xFF)]))).Inv ∧
      step (fetching 0xBFFF (stacked 16 15 4096 (regs [(0, 0xFF)]))) = .next t ∧ t.pc.toNat = 4350 :=
  ⟨_, ⟨by decide +kernel, fun _ => by decide +kernel⟩, rfl, by decide⟩

theorem witness_EveryHostOperationKeepsTheInvariant :
    Session.start.machine.Inv ∧ Session.perform .timerTick Session.start = .next Session.start ∧
      ReachedBy [.reset, .keySet 15 true, .timerTick] ⟨State.reset.setKeys 0x8000, false⟩ :=
  ⟨⟨by decide, fun _ => by decide⟩, rfl, rfl⟩

theorem witness_CanonicalMemoriesWithEqualBytesAreEqual :
    Memory.wf [(80, 1), (4095, 2)] ∧ ∀ a < 4096, Memory.get [(80, 1), (4095, 2)] a = Memory.get [(80, 1), (4095, 2)] a :=
  ⟨by decide +kernel, fun _ _ => rfl⟩

/-- NOP at an odd address. -/
theorem witness_NopChangesNothing :
    (State.reset.setPc 4093).fault = none ∧ (State.reset.setPc 4093).pc.toNat ≤ 4094 ∧
      (State.reset.setPc 4093).mem.get 4093 = 0 ∧ (State.reset.setPc 4093).mem.get 4094 = 0 := by decide +kernel

theorem witness_RetPopsOrUnderflows :
    (stacked 16 15 0x0321 State.reset).sp.val ≠ 0 ∧ (stacked 1 0 0x0ABC State.reset).sp.val ≠ 0 ∧
      State.reset.sp.val = 0 := by decide

theorem witness_CallPushesOrOverflows :
    (stacked 15 0 0 State.reset).sp.val ≠ 16 ∧ State.reset.sp.val ≠ 16 ∧ (stacked 16 0 0 State.reset).sp.val = 16 := by
  decide

theorem witness_RetUndoesCall :
    ∃ t, (stacked 15 0 0 State.reset).sp.val ≠ 16 ∧ exec (.call 0xFFF) (stacked 15 0 0 State.reset) = .next t :=
  ⟨_, by decide, rfl⟩

/-- A skip over an illegal word (T312), one at the last address, and a key skip with the greatest key index. -/
theorem witness_SkipStepNeverLooksAtTheSkippedWord :
    (fetchDecode (fetching 0x3000 (holding 0x202 [0xFF, 0xFF] State.reset)) = .ok (.seImm 0 0) ∧
      skipCondition (.seImm 0 0) (fetching 0x3000 (holding 0x202 [0xFF, 0xFF] State.reset)) = some true) ∧
    (fetchDecode (atTheEnd 0x4000 State.reset) = .ok (.sneImm 0 0) ∧
      skipCondition (.sneImm 0 0) (atTheEnd 0x4000 State.reset) = some false) ∧
    (fetchDecode (fetching 0xE2A1 (regs [(2, 15)])) = .ok (.sknp 2) ∧
      skipCondition (.sknp 2) (fetching 0xE2A1 (regs [(2, 15)])) = some true ∧
      executionFault (.sknp 2) (fetching 0xE2A1 (regs [(2, 15)])) = none ∧
      (fetching 0xE2A1 (regs [(2, 15)])).fault = none) :=
  ⟨⟨rfl, by decide⟩, ⟨rfl, by decide⟩, rfl, by decide, by decide, rfl⟩

/-- Equal, less and greater operands, for the two subtractions and for the flag order with VF as the destination. -/
theorem witness_SubtractionsWriteDifferenceThenNotBorrow :
    (5 = ((regs [(1, 5), (2, 5)]).getV 1).toNat ∧ 5 = ((regs [(1, 5), (2, 5)]).getV 2).toNat) ∧
      (0 = ((regs [(1, 0), (2, 1)]).getV 1).toNat ∧ 1 = ((regs [(1, 0), (2, 1)]).getV 2).toNat) ∧
      255 = ((regs [(1, 255), (2, 0)]).getV 1).toNat ∧ 0 = ((regs [(1, 255), (2, 0)]).getV 2).toNat := by decide

theorem witness_ShiftsCaptureTheBitShiftedOut :
    0x80 = ((regs [(4, 0x80)]).getV 4).toNat ∧ 0x7F = ((regs [(15, 0x7F)]).getV 15).toNat := by decide

theorem witness_FlagOrderWhenTheDestinationIsVF :
    (0xFF = ((regs [(15, 0xFF), (1, 0x01)]).getV vf).toNat ∧ 1 = ((regs [(15, 0xFF), (1, 0x01)]).getV 1).toNat) ∧
      0x7F = ((regs [(15, 0x7F), (1, 0x80)]).getV vf).toNat ∧ 0x80 = ((regs [(15, 0x7F), (1, 0x80)]).getV 1).toNat := by
  decide

theorem witness_RegistersChangeOnlyWhereNamed :
    ∃ t, exec (.addReg 1 2) (regs [(1, 0xFF), (2, 1)]) = .next t ∧ t.fault = none ∧
      writesRegister (.addReg 1 2) 2 = false ∧ writesRegister (.addReg 1 2) 15 = true := ⟨_, rfl, rfl, by decide, by decide⟩

/-- `I` at the last address from which three bytes fit, and one above it. -/
theorem witness_BcdStoresThreeDigits :
    255 = ((regs [(3, 255)]).getV 3).toNat ∧ (State.reset.setI 4093).i.toNat ≤ 4093 ∧
      4093 < (State.reset.setI 4094).i.toNat := by decide

theorem witness_RegisterStoreWritesTheRange :
    (State.reset.setI 0x0FF0).i.toNat + (15 : Reg).val ≤ 4095 ∧ (State.reset.setI 0x0FFF).i.toNat + (0 : Reg).val ≤ 4095 ∧
      4095 < (State.reset.setI 0x0FF1).i.toNat + (15 : Reg).val := by decide

theorem witness_RegisterLoadReadsTheRange :
    (State.reset.setI 0x0FF0).i.toNat + (15 : Reg).val ≤ 4095 ∧ (0 : Reg).val ≤ (15 : Reg).val ∧
      4095 < (State.reset.setI 0x0FF1).i.toNat + (15 : Reg).val := by decide

/-- A store that ends at the last byte of memory, and an instruction that stores nothing. -/
theorem witness_MemoryChangesOnlyWhereStored :
    (∃ t, exec (.ldMemVx 15) (State.reset.setI 0x0FF0) = .next t ∧ t.fault = none ∧
      (storedBytes (.ldMemVx 15) (State.reset.setI 0x0FF0)).length = 16) ∧
    ∃ t, exec (.addImm 0 1) State.reset = .next t ∧ t.fault = none ∧ storedBytes (.addImm 0 1) State.reset = [] :=
  ⟨⟨_, rfl, rfl, by decide⟩, ⟨_, rfl, rfl, rfl⟩⟩

theorem witness_OtherInstructionsNeverTouchMemory :
    ∃ t, ¬accessesMemory (.call 0x300) ∧ exec (.call 0x300) State.reset = .next t ∧ t.fault = none :=
  ⟨_, by simp [accessesMemory], rfl, rfl⟩

/-- P7: a store onto the word that is fetched next; `PC` stands on the first and, in the second part, on the last byte
stored. -/
theorem witness_NextFetchSeesTheStore :
    (∃ t, (∃ x, Instr.ldMemVx 1 = .ldB x ∨ Instr.ldMemVx 1 = .ldMemVx x) ∧
      exec (.ldMemVx 1) (((regs [(0, 0x63), (1, 0x2A)]).setI 0x208).setPc 0x208) = .next t ∧ t.fault = none ∧
      t.pc.toNat = 0x208 ∧ 0x208 ≤ 4094) ∧
    ∃ t, exec (.ldB 0) (((regs [(0, 157)]).setI 4092).setPc 4094) = .next t ∧ t.fault = none ∧ t.pc.toNat = 4094 :=
  ⟨⟨_, ⟨1, .inr rfl⟩, rfl, rfl, by decide, by decide⟩, ⟨_, rfl, rfl, by decide⟩⟩

/-- The state before T605: one lit pixel at the corner, under a 1 bit of the sprite at 0x300. -/
def corner : State := lit [(0, 0)] (holding 0x300 [0xF0] (State.reset.setI 0x300))

/-- No row; the last row at the last byte; one beyond it; a covered pixel, on and off, and one not covered. -/
theorem witness_DrawTogglesCoveredPixelsAndReportsCollision :
    ((0 : Fin 16).val = 0 ∨ (State.reset.setI 0xFFFF).i.toNat + (0 : Fin 16).val ≤ 4096) ∧
      ((15 : Fin 16).val = 0 ∨ (State.reset.setI 0x0FF1).i.toNat + (15 : Fin 16).val ≤ 4096) ∧
      (1 ≤ (15 : Fin 16).val ∧ 4096 < (State.reset.setI 0x0FF2).i.toNat + (15 : Fin 16).val) ∧
      (corner.Covers 0 1 1 0 0 ∧ corner.display.pixel 0 0 = true) ∧
      (corner.Covers 0 1 1 3 0 ∧ corner.display.pixel 3 0 = false) ∧
      ∀ px py, State.reset.Covers 0 1 0 px py → State.reset.display.pixel px py = false :=
  ⟨by decide, by decide, by decide, ⟨⟨0, by decide, 0, by decide, by decide +kernel⟩, by decide +kernel⟩,
    ⟨⟨0, by decide, 3, by decide, by decide +kernel⟩, by decide +kernel⟩, fun _ _ h => absurd h.choose_spec.1 (Nat.not_lt_zero _)⟩

theorem witness_DrawIsSelfInverse :
    ∃ t u, (0 : Reg) ≠ vf ∧ (1 : Reg) ≠ vf ∧ exec (.drw 0 1 1) corner = .next t ∧ t.fault = none ∧
      exec (.drw 0 1 1) t = .next u := ⟨_, _, by decide, by decide, rfl, rfl, rfl⟩

/-- Columns 0 and 64, rows 31 and 255. -/
theorem witness_DrawCoordinatesWrap :
    ∃ t t', OnlyV (regs [(0, 0), (1, 31)]) (regs [(0, 64), (1, 255)]) ∧
      ((regs [(0, 0), (1, 31)]).getV 0).toNat % 64 = ((regs [(0, 64), (1, 255)]).getV 0).toNat % 64 ∧
      ((regs [(0, 0), (1, 31)]).getV 1).toNat % 32 = ((regs [(0, 64), (1, 255)]).getV 1).toNat % 32 ∧
      exec (.drw 0 1 15) (regs [(0, 0), (1, 31)]) = .next t ∧ t.fault = none ∧
      exec (.drw 0 1 15) (regs [(0, 64), (1, 255)]) = .next t' :=
  ⟨_, _, rfl, by decide, by decide, rfl, rfl, rfl⟩

theorem witness_KeySkipsReadTheLatch :
    (15 = ((regs [(2, 15)]).getV 2).toNat ∧ 15 ≤ 15) ∧ (16 = ((regs [(2, 16)]).getV 2).toNat ∧ 15 < 16) ∧
      255 = ((regs [(2, 255)]).getV 2).toNat := by decide

/-- No key; the greatest key alone; the least of several. -/
theorem witness_KeyWaitTakesTheLowestKeyOrWaits :
    (∀ j, (fetching 0xF50A State.reset).keyDown j = false) ∧ (fetching 0xF50A State.reset).fault = none ∧
      fetchDecode (fetching 0xF50A State.reset) = .ok (.ldVxK 5) ∧
      ((State.reset.setKeys 0x8000).keyDown 15 = true ∧
        ∀ j : Key, j.val < 15 → (State.reset.setKeys 0x8000).keyDown j = false) ∧
      (State.reset.setKeys 0x1018).keyDown 3 = true ∧
        ∀ j : Key, j.val < 3 → (State.reset.setKeys 0x1018).keyDown j = false :=
  ⟨by decide, rfl, rfl, by decide, by decide⟩

theorem witness_SpecialRegistersChangeOnlyByTheirInstructions :
    ∃ t, exec (.call 0x300) State.reset = .next t ∧ t.fault = none ∧ t.stack ≠ State.reset.stack ∧ t.sp ≠ State.reset.sp :=
  ⟨_, rfl, rfl, by decide, by decide⟩

theorem witness_SoundTimerIsNeverRead :
    ∃ t, exec (.ldStVx 6) (regs [(6, 1)]) = .next t ∧ t.fault = none ∧ t.st = 1 := ⟨_, rfl, rfl, by decide⟩

theorem witness_TimerTickDecrementsOnceAndStopsAtZero :
    (State.reset.takeFault .stackOverflow).fault ≠ none ∧ ((State.reset.setDt 255).setSt 0).fault = none :=
  ⟨by simp [State.takeFault], rfl⟩

theorem witness_KeySetChangesOneBit :
    15 < 16 ∧ (15 ≤ 15 ∧ (State.reset.takeFault .stackOverflow).fault ≠ none) ∧ (15 ≤ 15 ∧ State.reset.fault = none) :=
  ⟨by decide, ⟨by decide, by simp [State.takeFault]⟩, by decide, rfl⟩

/-- One byte too long, the longest image, and a session after a Step. -/
theorem witness_LoadCopiesTheImage :
    3584 < (List.replicate 3585 (1 : Byte)).length ∧ (Session.mk State.reset true).stepped = true ∧
      ((List.replicate 3584 (1 : Byte)).length ≤ 3584 ∧ Session.start.stepped = false ∧
        Session.start.machine.fault = none) :=
  ⟨by rw [List.length_replicate]; decide, rfl, by rw [List.length_replicate], rfl, rfl⟩

theorem witness_LaunchBeginsWithTheFirstImageWord :
    (List.replicate 3582 (1 : Byte)).length + 2 ≤ 3584 ∧ ([] : List Byte).length + 2 ≤ 3584 :=
  ⟨by rw [List.length_replicate], by decide⟩

end Sys2Proof.Tests
end

/-! PROOFS. The state family (10_state.md). First what an instruction answers, said once for all 35 of them: its own fault,
or the state `completed` writes out; then what that state holds, field by field; then the statements. -/

namespace Sys2Proof.Machine

/-! ### What an instruction answers -/

/-- The state in which `i`, entered in `s`, completes, for a state in which it raises no fault (`exec_eq_answer`). Written so that
a field an instruction leaves alone is `s`'s own by `rfl`. -/
def completed (i : Instr) (s : State) : State :=
  match i with
  | .nop => s
  | .cls => s.setDisplay Display.clear
  | .ret => { s with sp := ⟨s.sp.val - 1, by omega⟩, pc := s.stack[s.sp.val - 1] }
  | .jp nnn => s.setPc (addrWord nnn)
  | .call nnn =>
    { s with
      stack := s.stack.setIfInBounds s.sp.val s.pc
      sp := ⟨min (s.sp.val + 1) 16, by omega⟩
      pc := addrWord nnn }
  | .seImm x kk => s.setPc (if s.getV x = kk then s.pc + 2#16 else s.pc)
  | .sneImm x kk => s.setPc (if s.getV x ≠ kk then s.pc + 2#16 else s.pc)
  | .seReg x y => s.setPc (if s.getV x = s.getV y then s.pc + 2#16 else s.pc)
  | .ldImm x kk => s.setV x kk
  | .addImm x kk => s.setV x (s.getV x + kk)
  | .ldReg x y => s.setV x (s.getV y)
  | .orReg x y => s.setV x (s.getV x ||| s.getV y)
  | .andReg x y => s.setV x (s.getV x &&& s.getV y)
  | .xorReg x y => s.setV x (s.getV x ^^^ s.getV y)
  | .addReg x y => s.resultThenFlag x (s.getV x + s.getV y) (carryOut (s.getV x) (s.getV y))
  | .sub x y => s.resultThenFlag x (s.getV x - s.getV y) (notBorrow (s.getV x) (s.getV y))
  | .shr x => s.flagThenResult x (shiftOutRight (s.getV x)) (fun b => b >>> 1)
  | .subn x y => s.resultThenFlag x (s.getV y - s.getV x) (notBorrow (s.getV y) (s.getV x))
  | .shl x => s.flagThenResult x (shiftOutLeft (s.getV x)) (fun b => b <<< 1)
  | .sneReg x y => s.setPc (if s.getV x ≠ s.getV y then s.pc + 2#16 else s.pc)
  | .ldI nnn => s.setI (addrWord nnn)
  | .jpV0 nnn => s.setPc (jumpOffset nnn (s.getV 0))
  | .rnd x kk => rndWith (Config.rnd s.draws) x kk s.advanceDraws
  | .drw x y n => (s.setDisplay (s.sprite x y n).1).setFlag (s.sprite x y n).2
  | .skp x => s.setPc (if s.keys.getLsbD (s.getV x).toNat = true then s.pc + 2#16 else s.pc)
  | .sknp x => s.setPc (if s.keys.getLsbD (s.getV x).toNat = false then s.pc + 2#16 else s.pc)
  | .ldVxDt x => s.setV x s.dt
  | .ldVxK x => s.firstKey.elim s.rewindPc fun k => s.setV x (keyByte k)
  | .ldDtVx x => s.setDt (s.getV x)
  | .ldStVx x => s.setSt (s.getV x)
  | .addI x => s.setI (s.i + byteWord (s.getV x))
  | .ldF x => s.setI (glyphAddress (s.getV x))
  | .ldB x => s.setMem (s.mem.putBytes (s.ea 0) (bcdDigits (s.getV x)))
  | .ldMemVx x => s.setMem (s.mem.putBytes (s.ea 0) (s.registersUpTo x))
  | .ldVxMem x => { s with v := (s.loadRegisters x).v }

/-- An instruction's own fault if its condition holds, else the completed state. -/
def answer (i : Instr) (s : State) : Host.Outcome State Fault Refusal :=
  (executionFault i s).elim (.next (completed i s)) (raise · s)

theorem answer_of_fault {i : Instr} {s : State} {f : Fault} (h : executionFault i s = some f) :
    answer i s = raise f s := by
  rw [answer, h, Option.elim_some]

theorem answer_of_none {i : Instr} {s : State} (h : executionFault i s = none) : answer i s = .next (completed i s) := by
  rw [answer, h, Option.elim_none]

/-- A skip sets `PC` alone, on a condition written as a proposition. -/
theorem State.skipIf_eq_setPc (s : State) {c : Bool} {p : Prop} [Decidable p] (h : c = true ↔ p) :
    s.skipIf c = s.setPc (if p then s.pc + 2#16 else s.pc) := by
  simp only [State.skipIf_eq, State.setPc, h]

/-- A memory instruction answers as its range condition says (60_exceptions.md R193). -/
theorem accessing_eq_answer {i : Instr} {s : State} {n : Nat}
    (hbad : 1 ≤ n ∧ 4096 < s.i.toNat + n → executionFault i s = some (.memOutOfRange (max s.i.toNat 4096)))
    (hok : ¬(1 ≤ n ∧ 4096 < s.i.toNat + n) → executionFault i s = none) :
    accessing n s (completed i s) = answer i s := by
  rcases accessing_eq n s (completed i s) with ⟨h, he⟩ | ⟨h, he⟩
  · rw [he, answer_of_fault (hbad h)]
  · rw [he, answer_of_none (hok h)]

theorem execRet_eq (s : State) : execRet s = answer .ret s := by
  rcases s.pop_eq with ⟨h, hp⟩ | ⟨h, hp⟩
  · rw [answer_of_fault (i := .ret) (s := s) (f := .stackUnderflow) (if_pos h), execRet, hp]
  · rw [answer_of_none (i := .ret) (s := s) (if_neg (by omega)), execRet, hp]
    rfl

theorem execCall_eq (nnn : Addr12) (s : State) : execCall nnn s = answer (.call nnn) s := by
  rcases s.push_eq s.pc with ⟨h, hp⟩ | ⟨h, hp⟩
  · rw [answer_of_fault (i := .call nnn) (s := s) (f := .stackOverflow) (if_pos h), execCall, hp]
  · have hsp : min (s.sp.val + 1) 16 = s.sp.val + 1 := by omega
    rw [answer_of_none (i := .call nnn) (s := s) (if_neg (by omega)), execCall, hp]
    have hst : s.stack.setIfInBounds s.sp.val s.pc = s.stack.set s.sp.val s.pc h :=
      Vector.ext fun k hk => by rw [Vector.getElem_setIfInBounds, Vector.getElem_set]
    simp [completed, State.setPc, hst, hsp]

/-- A key skip answers as the key index's range says (45_keypad_timers.md R161, R162). -/
theorem execSkp_eq (x : Reg) (s : State) : execSkp x s = answer (.skp x) s := by
  rcases keyOf_eq (s.getV x) with ⟨h, hk⟩ | ⟨h, hk⟩
  · rw [answer_of_fault (i := .skp x) (s := s) (f := .keyIndexOutOfRange (s.getV x)) (if_pos h), execSkp, hk]
  · rw [answer_of_none (i := .skp x) (s := s) (if_neg (by omega)), execSkp, hk]
    exact congrArg _ (s.skipIf_eq_setPc Iff.rfl)

theorem execSknp_eq (x : Reg) (s : State) : execSknp x s = answer (.sknp x) s := by
  rcases keyOf_eq (s.getV x) with ⟨h, hk⟩ | ⟨h, hk⟩
  · rw [answer_of_fault (i := .sknp x) (s := s) (f := .keyIndexOutOfRange (s.getV x)) (if_pos h), execSknp, hk]
  · rw [answer_of_none (i := .sknp x) (s := s) (if_neg (by omega)), execSknp, hk]
    exact congrArg _ (s.skipIf_eq_setPc (Iff.of_eq (Bool.not_eq_true' _)))

theorem execLdVxK_eq (x : Reg) (s : State) : execLdVxK x s = answer (.ldVxK x) s := by
  rw [execLdVxK, answer_of_none rfl, completed]
  cases s.firstKey <;> rfl

theorem execLdVxMem_eq (x : Reg) (s : State) : execLdVxMem x s = answer (.ldVxMem x) s := by
  have hload : s.loadRegisters x = completed (.ldVxMem x) s := by
    obtain ⟨v, hv, -⟩ := s.loadRegisters_eq x
    rw [completed, hv]
  rw [execLdVxMem, hload]
  exact accessing_eq_answer (fun h => if_pos h.2) (fun h => if_neg (by omega))

/-- What every instruction answers, from every state. -/
theorem exec_eq_answer (i : Instr) (s : State) : exec i s = answer i s := by
  cases i with
  | ret => exact execRet_eq s
  | call nnn => exact execCall_eq nnn s
  | seImm x kk => exact congrArg _ (s.skipIf_eq_setPc beq_iff_eq)
  | sneImm x kk => exact congrArg _ (s.skipIf_eq_setPc bne_iff_ne)
  | seReg x y => exact congrArg _ (s.skipIf_eq_setPc beq_iff_eq)
  | sneReg x y => exact congrArg _ (s.skipIf_eq_setPc bne_iff_ne)
  | skp x => exact execSkp_eq x s
  | sknp x => exact execSknp_eq x s
  | ldVxK x => exact execLdVxK_eq x s
  | drw x y n => exact accessing_eq_answer (i := .drw x y n) (fun h => if_pos h) (fun h => if_neg h)
  | ldB x => exact accessing_eq_answer (i := .ldB x) (fun h => if_pos h.2) (fun h => if_neg (by omega))
  | ldMemVx x => exact accessing_eq_answer (i := .ldMemVx x) (fun h => if_pos h.2) (fun h => if_neg (by omega))
  | ldVxMem x => exact execLdVxMem_eq x s
  | _ => rfl

/-- The two ways an instruction can answer a next state. -/
theorem exec_next_cases {i : Instr} {s t : State} (h : exec i s = .next t) :
    (∃ f, executionFault i s = some f ∧ t = s.takeFault f) ∨ (executionFault i s = none ∧ t = completed i s) := by
  rw [exec_eq_answer] at h
  cases hf : executionFault i s with
  | none =>
    rw [answer_of_none hf] at h
    exact .inr ⟨rfl, (Host.Outcome.next.inj h).symm⟩
  | some f =>
    rw [answer_of_fault hf] at h
    exact .inl ⟨f, rfl, (Host.Outcome.next.inj h).symm⟩

/-- An instruction that answers a state with no fault latched has completed. -/
theorem completed_of_exec {i : Instr} {s t : State} (h : exec i s = .next t) (ht : t.fault = none) :
    executionFault i s = none ∧ t = completed i s := by
  rcases exec_next_cases h with ⟨f, -, rfl⟩ | hc
  · rw [State.takeFault_fault] at ht
    cases ht
  · exact hc

/-! ### What the completed state holds -/

/-- Memory is written by LD B and LD [I], Vx alone (43_index_memory.md R147). -/
theorem completed_mem (i : Instr) (s : State) :
    (completed i s).mem = s.mem.putBytes (s.ea 0) (storedBytes i s) := by
  cases i with
  | ldVxK x =>
    rw [completed]
    cases s.firstKey <;> rfl
  | _ => rfl

/-- The return addresses held are those held before, but for the one CALL pushes (40_control_flow.md R102, R104). -/
theorem completed_held_entry {i : Instr} {s : State} (hx : executionFault i s = none) (k : Fin 16)
    (hk : k.val < (completed i s).sp.val) :
    (k.val < s.sp.val ∧ (completed i s).stack[k] = s.stack[k]) ∨ (completed i s).stack[k] = s.pc := by
  cases i with
  | ret => exact .inl ⟨by change k.val < s.sp.val - 1 at hk; omega, rfl⟩
  | call nnn =>
    change k.val < min (s.sp.val + 1) 16 at hk
    by_cases h : s.sp.val = k.val
    · exact .inr (by simp [completed, h])
    · exact .inl ⟨by omega, by simp [completed, h]⟩
  | ldVxK x =>
    refine .inl ?_
    rw [completed] at hk ⊢
    cases h : s.firstKey <;> rw [h] at hk <;> exact ⟨hk, rfl⟩
  | _ => exact .inl ⟨hk, rfl⟩

theorem State.firstKey_eq_none_iff (s : State) : s.firstKey = none ↔ s.keys = 0 := by
  rcases s.firstKey_eq with ⟨h, hk⟩ | ⟨k, h, hk, -⟩
  · simp only [h, true_iff]
    exact BitVec.eq_of_getLsbD_eq fun j hj => by simpa [State.keyDown] using hk ⟨j, hj⟩
  · simp only [h, reduceCtorEq, false_iff]
    intro h0
    simp [State.keyDown, h0] at hk

theorem addrWord_toNat (nnn : Addr12) : (addrWord nnn).toNat = nnn.toNat := by
  rw [addrWord, BitVec.toNat_setWidth_of_le (by decide)]

/-- The sum of JP V0 never reaches 65536 (40_control_flow.md R105, D23). -/
theorem jumpOffset_toNat (nnn : Addr12) (b : Byte) : (jumpOffset nnn b).toNat = nnn.toNat + b.toNat := by
  have hb : (byteWord b).toNat = b.toNat := by rw [byteWord, BitVec.toNat_setWidth_of_le (by decide)]
  rw [jumpOffset, BitVec.toNat_add, addrWord_toNat, hb]
  omega

/-- `PC` after a completed instruction is the number the table gives (10_state.md R26); no write to it is cut off. -/
theorem completed_pc {i : Instr} {s : State} (hp : s.pc.toNat ≤ 4094) (hx : executionFault i s.advancePc = none) :
    (completed i s.advancePc).pc.toNat = pcAfter i s := by
  have h2 : (s.pc + 2#16).toNat = s.pc.toNat + 2 := s.advancePc_toNat hp
  have hskip (c : Prop) [Decidable c] : (if c then s.pc + 2#16 + 2#16 else s.pc + 2#16).toNat =
      if c then s.pc.toNat + 4 else s.pc.toNat + 2 := by
    split <;> bv_omega
  cases i with
  | jp nnn => exact addrWord_toNat nnn
  | call nnn => exact addrWord_toNat nnn
  | jpV0 nnn => exact jumpOffset_toNat nnn _
  | ret =>
    have hsp : s.sp.val ≠ 0 := fun h => by simp [executionFault, h] at hx
    simp only [pcAfter, hsp, dite_false]
    rfl
  | ldVxK x =>
    change ((s.firstKey.elim _ _ : State).pc).toNat = if s.keys = 0 then _ else _
    simp only [← s.firstKey_eq_none_iff]
    cases h : s.firstKey with
    | none => simp
    | some k => exact h2
  | seImm x kk => exact hskip _
  | sneImm x kk => exact hskip _
  | seReg x y => exact hskip _
  | sneReg x y => exact hskip _
  | skp x => exact hskip _
  | sknp x => exact hskip _
  | _ => exact h2

/-! ### Registers -/

theorem State.getV_resultThenFlag_ne (s : State) {x k : Reg} (h : ¬(k = x ∨ k = vf)) (r : Byte) (b : Bool) :
    (s.resultThenFlag x r b).getV k = s.getV k := by
  rw [not_or] at h
  rw [State.resultThenFlag, State.getV_setFlag, if_neg h.2, State.getV_setV_ne s h.1]

theorem State.getV_flagThenResult_ne (s : State) {x k : Reg} (h : ¬(k = x ∨ k = vf)) (b : Bool) (f : Byte → Byte) :
    (s.flagThenResult x b f).getV k = s.getV k := by
  rw [not_or] at h
  rw [State.flagThenResult, State.getV_setV_ne _ h.1, State.getV_setFlag, if_neg h.2]

theorem State.getV_loadRegisters (s : State) (x k : Reg) :
    (s.loadRegisters x).getV k = if k.val ≤ x.val then s.mem.get (s.i.toNat + k.val) else s.getV k := by
  obtain ⟨v, hv, hk⟩ := s.loadRegisters_eq x
  rw [hv]
  exact hk k

/-- A register the instruction does not name reads as before (10_state.md R23). -/
theorem completed_getV {i : Instr} {k : Reg} (h : writesRegister i k = false) (s : State) :
    (completed i s).getV k = s.getV k := by
  cases i with
  | ldImm x _ | addImm x _ | ldReg x _ | orReg x _ | andReg x _ | xorReg x _ | ldVxDt x =>
    exact s.getV_setV_ne (of_decide_eq_false h) _
  | rnd x kk => exact s.advanceDraws.getV_setV_ne (of_decide_eq_false h) _
  | addReg x _ | sub x _ | subn x _ => exact s.getV_resultThenFlag_ne (of_decide_eq_false h) _ _
  | shr x | shl x => exact s.getV_flagThenResult_ne (of_decide_eq_false h) _ _
  | drw x y n => exact (State.getV_setFlag _ k _).trans (if_neg (of_decide_eq_false h))
  | ldVxK x =>
    rw [completed]
    cases s.firstKey with
    | none => rfl
    | some j => exact s.getV_setV_ne (of_decide_eq_false h) _
  | ldVxMem x => exact (s.getV_loadRegisters x k).trans (if_neg (of_decide_eq_false h))
  | _ => rfl

/-- Settles O34: what an instruction that completes leaves of each register, over every instruction. -/
theorem registersChangeOnlyWhereNamed : Obligations.RegistersChangeOnlyWhereNamed := by
  intro i s t h ht k hk
  obtain ⟨-, rfl⟩ := completed_of_exec h ht
  exact completed_getV hk s

/-! ### The sound timer -/

theorem executionFault_setSt (i : Instr) (s : State) (b : Byte) :
    executionFault i (s.setSt b) = executionFault i s := by
  cases i <;> rfl

/-- An instruction completes alike whatever ST holds, and leaves ST alone but for LD ST, Vx (45_keypad_timers.md R166). -/
theorem completed_setSt (i : Instr) (s : State) (b : Byte) :
    ∃ c, completed i (s.setSt b) = (completed i s).setSt c ∧ (c = b ∨ ∃ x, i = .ldStVx x ∧ c = (completed i s).st) := by
  cases i with
  | ldStVx x => exact ⟨s.getV x, rfl, .inr ⟨x, rfl, rfl⟩⟩
  | ldVxK x =>
    refine ⟨b, ?_, .inl rfl⟩
    change s.firstKey.elim _ _ = (s.firstKey.elim _ _ : State).setSt b
    cases s.firstKey <;> rfl
  | ldVxMem x =>
    have hv : ((s.setSt b).loadRegisters x).v = (s.loadRegisters x).v :=
      State.v_ext fun k => by
        rw [State.getV_loadRegisters, State.getV_loadRegisters]
        rfl
    refine ⟨b, ?_, .inl rfl⟩
    rw [completed, completed, hv]
    rfl
  | _ => exact ⟨b, rfl, .inl rfl⟩

/-- Settles O50: neither an instruction's fault nor its completed state depends on ST. -/
theorem soundTimerIsNeverRead : Obligations.SoundTimerIsNeverRead := by
  intro i s t b h ht
  obtain ⟨hx, rfl⟩ := completed_of_exec h ht
  obtain ⟨c, hc, hcb⟩ := completed_setSt i s b
  refine ⟨c, ?_, hcb⟩
  have hxb : executionFault i (s.setSt b) = none := (executionFault_setSt i s b).trans hx
  calc exec i (s.setSt b) = answer i (s.setSt b) := exec_eq_answer i _
    _ = .next (completed i (s.setSt b)) := answer_of_none hxb
    _ = .next ((completed i s).setSt c) := by rw [hc]

/-! ### The program counter of a Step -/

/-- Fetch and decode give an instruction only where a fetch is possible. -/
theorem pc_le_of_fetchDecode {s : State} {i : Instr} (h : fetchDecode s = .ok i) : s.pc.toNat ≤ 4094 := by
  rcases fetchWord_eq s with ⟨hp, -⟩ | ⟨-, hw⟩
  · exact hp
  · simp [fetchDecode, hw] at h

/-- A Step runs the instruction fetched, with `PC` advanced (48_host_interface.md R171). -/
theorem step_of_fetchDecode {s : State} {i : Instr} (hf : s.fault = none) (h : fetchDecode s = .ok i) :
    step s = exec i s.advancePc := by
  simp [step, hf, h]

/-- Settles O10: the table's value is that of the completed state. -/
theorem stepLeavesPcAsTabulated : Obligations.StepLeavesPcAsTabulated := by
  intro s t i hf hi hs ht
  rw [step_of_fetchDecode hf hi] at hs
  obtain ⟨hx, rfl⟩ := completed_of_exec hs ht
  exact completed_pc (pc_le_of_fetchDecode hi) hx

/-! ### The invariant -/

/-- A faulted state meets the invariant as soon as its memory is canonical. -/
theorem State.takeFault_inv (s : State) (f : Fault) : (s.takeFault f).Inv :=
  ⟨s.takeFault_wf f, fun h => by cases h⟩

/-- No value of the table of R26 exceeds 4350 (10_state.md R27 (c)). -/
theorem pcAfter_le {i : Instr} {s : State} (hs : s.Inv) (hf : s.fault = none) (hp : s.pc.toNat ≤ 4094) :
    pcAfter i s ≤ 4350 := by
  obtain ⟨-, hpc⟩ := hs
  obtain ⟨-, hret⟩ := hpc hf
  have hskip (c : Prop) [Decidable c] : (if c then s.pc.toNat + 4 else s.pc.toNat + 2) ≤ 4350 := by split <;> omega
  cases i with
  | jp nnn | call nnn =>
    have := nnn.isLt
    change nnn.toNat ≤ 4350
    omega
  | jpV0 nnn =>
    have := nnn.isLt
    have := (s.getV 0).isLt
    change nnn.toNat + (s.getV 0).toNat ≤ 4350
    omega
  | ret =>
    by_cases h : s.sp.val = 0
    · simp [pcAfter, h]
    · have hk : (s.stack[s.sp.val - 1]).toNat ≤ 4096 := hret ⟨s.sp.val - 1, by omega⟩ (by change _ - 1 < _; omega)
      simp only [pcAfter, h, dite_false]
      omega
  | ldVxK x =>
    change (if s.keys = 0 then s.pc.toNat else s.pc.toNat + 2) ≤ 4350
    split <;> omega
  | seImm x kk | sneImm x kk | seReg x y | sneReg x y | skp x | sknp x => exact hskip _
  | _ =>
    change s.pc.toNat + 2 ≤ 4350
    omega

/-- An instruction run by a Step that completes keeps the invariant. -/
theorem completed_inv {i : Instr} {s : State} (hs : s.Inv) (hf : s.fault = none) (hp : s.pc.toNat ≤ 4094)
    (hx : executionFault i s.advancePc = none) : (completed i s.advancePc).Inv := by
  refine ⟨?_, fun _ => ⟨?_, fun k hk => ?_⟩⟩
  · rw [completed_mem]
    exact Memory.wf_putBytes hs.1 _ _
  · rw [completed_pc hp hx]
    exact pcAfter_le hs hf hp
  · rcases completed_held_entry hx k hk with ⟨hlt, he⟩ | he
    · rw [he]
      exact (hs.2 hf).2 k hlt
    · rw [he, s.advancePc_toNat hp]
      omega

/-- Settles O17: a Step freezes, faults or completes an instruction, and each keeps the invariant. -/
theorem stepKeepsTheInvariant : Obligations.StepKeepsTheInvariant := by
  intro s t hs h
  rcases step_cases s with ⟨-, he⟩ | ⟨-, -, he⟩ | ⟨-, -, -, he⟩ | ⟨hf, hp, i, -, he⟩
  all_goals rw [he] at h
  · cases h
    exact hs
  · cases h
    exact s.takeFault_inv _
  · cases h
    exact s.takeFault_inv _
  · rcases exec_next_cases h with ⟨f, -, rfl⟩ | ⟨hx, rfl⟩
    · exact s.advancePc.takeFault_inv f
    · exact completed_inv hs hf hp hx

/-- Settles O16: nothing is listed, `PC` is 512 and the stack holds nothing. -/
theorem resetStateMeetsTheInvariant : Obligations.ResetStateMeetsTheInvariant :=
  ⟨Memory.wf_nil, fun _ => ⟨by decide, fun _ hk => absurd hk (Nat.not_lt_zero _)⟩⟩

theorem timerTick_inv {s : State} (hs : s.Inv) : (timerTick s).Inv := by
  unfold timerTick
  split <;> exact hs

theorem keySet_inv {k : Nat} {pressed : Bool} {s t : State} (hs : s.Inv) (h : keySet k pressed s = .next t) : t.Inv := by
  unfold keySet at h
  split at h
  · split at h <;> cases h <;> exact hs
  · cases h

theorem load_inv {bytes : List Byte} {s t : State} (hs : s.Inv) (h : load bytes s = .next t) : t.Inv := by
  unfold load at h
  split at h
  · cases h
  · split at h <;> cases h
    exact ⟨Memory.wf_putBytes hs.1 _ _, hs.2⟩

/-- An operation on the machine that answers a next session has answered that session's machine. -/
theorem Session.lift_eq_next {b : Bool} {o : Host.Outcome State Fault Refusal} {τ : Session}
    (h : Session.lift b o = .next τ) : o = .next τ.machine := by
  cases o with
  | next t =>
    cases h
    rfl
  | fault f => cases h
  | refused r => cases h

theorem Session.perform_inv {op : HostOp} {σ τ : Session} (hσ : σ.machine.Inv) (h : Session.perform op σ = .next τ) :
    τ.machine.Inv := by
  cases op with
  | step => exact stepKeepsTheInvariant _ _ hσ (Session.lift_eq_next h)
  | timerTick =>
    cases h
    exact timerTick_inv hσ
  | keySet k pressed => exact keySet_inv hσ (Session.lift_eq_next h)
  | load bytes =>
    rw [Session.perform] at h
    split at h
    · cases h
    · exact load_inv hσ (Session.lift_eq_next h)
  | reset =>
    cases h
    exact resetStateMeetsTheInvariant

theorem Session.run_inv {ops : List HostOp} {σ τ : Session} (hσ : σ.machine.Inv) (h : Session.run ops σ = .next τ) :
    τ.machine.Inv := by
  induction ops generalizing σ with
  | nil =>
    cases h
    exact hσ
  | cons op ops ih =>
    rw [Session.run] at h
    split at h
    · next hop => exact ih (Session.perform_inv hσ hop) h
    · cases h
    · cases h

/-- Settles O18: each operation keeps the invariant, so by induction on the schedule every schedule does. -/
theorem everyHostOperationKeepsTheInvariant : Obligations.EveryHostOperationKeepsTheInvariant :=
  ⟨fun _ _ _ => Session.perform_inv, fun _ _ h => Session.run_inv (σ := Session.start) resetStateMeetsTheInvariant h⟩

/-! ### The reset state -/

/-- Settles O1: memory reads as nothing listed, and every other field is the constant R40 gives. -/
theorem resetStateHasTheStatedValues : Obligations.ResetStateHasTheStatedValues := by
  refine ⟨⟨fun a ha => Memory.unlisted_font ha, fun a ha _ => Memory.unlisted_zero ha, fun k => ?_, rfl, rfl, fun k => ?_,
    rfl, rfl, rfl, fun j => Display.pixel_clear _ _, fun k => ?_, rfl⟩, rfl⟩
  · simp [State.getV, State.reset]
  · simp [State.reset]
  · simp [State.keyDown, State.reset]

end Sys2Proof.Machine

/-! PROOFS. The memory family (20_memory.md). What each address of memory reads as after an instruction that completes, said
once for all of them: the byte stored there, or the byte before. -/

namespace Sys2Proof.Machine

/-- A read after a write of a list of bytes that fits: the byte written to the address, or the byte before. -/
theorem Memory.get_putBytes (m : Memory) (a : Nat) (bs : List Byte) (hfit : 0 < bs.length → a + bs.length ≤ 4096)
    (e : Nat) :
    (m.putBytes a bs).get e = if h : a ≤ e ∧ e - a < bs.length then bs[e - a] else m.get e := by
  split
  · next hin =>
    obtain ⟨hle, hlt⟩ := hin
    have hread := m.get_putBytes_inside a bs hlt (hfit (by omega))
    rwa [Nat.add_sub_cancel' hle] at hread
  · exact m.get_putBytes_outside a bs (by omega)

/-- What an instruction stores without a fault lies in memory (20_memory.md R59). -/
theorem storedBytes_fit {i : Instr} {s : State} (hx : executionFault i s = none) (h : 0 < (storedBytes i s).length) :
    s.ea 0 + (storedBytes i s).length ≤ 4096 := by
  cases i with
  | ldB x =>
    have hlen : (storedBytes (.ldB x) s).length = 3 := rfl
    have hea : s.ea 0 = s.i.toNat := rfl
    simp only [executionFault, ite_eq_right_iff, reduceCtorEq, imp_false] at hx
    omega
  | ldMemVx x =>
    have hlen : (storedBytes (.ldMemVx x) s).length = x.val + 1 := s.registersUpTo_length x
    have hea : s.ea 0 = s.i.toNat := rfl
    simp only [executionFault, ite_eq_right_iff, reduceCtorEq, imp_false] at hx
    omega
  | _ => exact absurd h (Nat.lt_irrefl 0)

/-- Every byte of memory after an instruction that completes (43_index_memory.md R147). -/
theorem completed_mem_get {i : Instr} {s : State} (hx : executionFault i s = none) (a : Nat) :
    (completed i s).mem.get a =
      if h : s.ea 0 ≤ a ∧ a - s.ea 0 < (storedBytes i s).length then (storedBytes i s)[a - s.ea 0]
      else s.mem.get a := by
  rw [completed_mem]
  exact Memory.get_putBytes _ _ _ (storedBytes_fit hx) a

/-- A fetch in range reads the two bytes at `PC`, the first as the high byte (20_memory.md R52). -/
theorem fetchWord_of_le {s : State} (h : s.pc.toNat ≤ 4094) :
    fetchWord s = .ok (s.mem.get s.pc.toNat ++ s.mem.get (s.pc.toNat + 1)) := by
  rcases fetchWord_eq s with ⟨-, hw⟩ | ⟨hp, -⟩
  · exact hw
  · omega

/-- Settles O41: a fetch reads memory itself, and memory holds the stored bytes once the instruction has completed. -/
theorem nextFetchSeesTheStore : Obligations.NextFetchSeesTheStore := by
  rintro i s t - h ht p rfl hp byte hbyte
  obtain ⟨hx, rfl⟩ := completed_of_exec h ht
  have hread (a : Nat) : (completed i s).mem.get a = byte a := (completed_mem_get hx a).trans (hbyte a).symm
  rw [fetchWord_of_le hp, hread, hread]

end Sys2Proof.Machine

/-! PROOFS. The encoding family (30_encoding.md). What each shape of mask asks of a word's fields; the rows of one opcode
class; then the one equation both halves of the opcode map's agreement follow from: the decoder's answer is the row of the
word's class that admits the word. -/

namespace Sys2Proof.Machine

/-! ### The fields as numbers -/

theorem nib3_toNat (w : Word) : (nib3 w).toNat = (fieldKk w).toNat / 16 := by
  simp only [nib3, fieldKk, BitVec.extractLsb'_toNat, Nat.shiftRight_eq_div_pow]
  omega

theorem nib4_toNat (w : Word) : (nib4 w).toNat = (fieldKk w).toNat % 16 := by
  simp only [nib4, fieldKk, BitVec.extractLsb'_toNat, Nat.shiftRight_eq_div_pow]
  omega

/-! ### A word in each format -/

theorem nib1_append_nib2 (w : Word) : nib1 w ++ nib2 w = w.extractLsb' 8 8 :=
  BitVec.extractLsb'_append_extractLsb'_eq_extractLsb' (by decide)

theorem encodeA_fields (w : Word) : encodeA (nib1 w) (fieldNnn w) = w :=
  (BitVec.extractLsb'_append_extractLsb'_eq_extractLsb' (by decide)).trans BitVec.extractLsb'_eq_self

theorem encodeS_fields (w : Word) : encodeS (nib1 w) (fieldX w) (fieldKk w) = w := by
  change nib1 w ++ nib2 w ++ fieldKk w = w
  rw [nib1_append_nib2]
  exact wordOfBytes_bytes w

theorem encodeR_fields (w : Word) : encodeR (nib1 w) (fieldX w) (fieldY w) (nib4 w) = w := by
  have hxy : w.extractLsb' 8 8 ++ nib3 w = w.extractLsb' 4 12 :=
    BitVec.extractLsb'_append_extractLsb'_eq_extractLsb' (by decide)
  change nib1 w ++ nib2 w ++ nib3 w ++ nib4 w = w
  rw [nib1_append_nib2, hxy]
  exact (BitVec.extractLsb'_append_extractLsb'_eq_extractLsb' (by decide)).trans BitVec.extractLsb'_eq_self

/-! ### What a row asks of a word's fields -/

theorem and_classMask_iff (w : Word) (op : Nibble) : w &&& 0xF000 = encodeA op 0 ↔ nib1 w = op := by
  have hw : w &&& 0xF000 = encodeA (nib1 w) 0 := by
    conv_lhs => rw [← encodeA_fields w]
    exact and_encodeA _ _
  rw [hw]
  refine ⟨fun h => ?_, fun h => by rw [h]⟩
  rw [← nib1_encodeA (nib1 w) 0, h, nib1_encodeA]

theorem and_lowNibbleMask_iff (w : Word) (op low : Nibble) :
    w &&& 0xF00F = encodeR op 0 0 low ↔ nib1 w = op ∧ nib4 w = low := by
  have hw : w &&& 0xF00F = encodeR (nib1 w) 0 0 (nib4 w) := by
    conv_lhs => rw [← encodeR_fields w]
    exact and_encodeR _ _ _ _
  rw [hw]
  refine ⟨fun h => ⟨?_, ?_⟩, fun ⟨h1, h4⟩ => by rw [h1, h4]⟩
  · rw [← nib1_encodeR (nib1 w) 0 0 (nib4 w), h, nib1_encodeR]
  · rw [← nib4_encodeR (nib1 w) 0 0 (nib4 w), h, nib4_encodeR]

theorem and_lowByteMask_iff (w : Word) (op : Nibble) (low : Byte) :
    w &&& 0xF0FF = encodeS op 0 low ↔ nib1 w = op ∧ fieldKk w = low := by
  have hw : w &&& 0xF0FF = encodeS (nib1 w) 0 (fieldKk w) := by
    conv_lhs => rw [← encodeS_fields w]
    exact and_encodeS _ _ _
  rw [hw]
  refine ⟨fun h => ⟨?_, ?_⟩, fun ⟨h1, hk⟩ => by rw [h1, hk]⟩
  · rw [← nib1_encodeI (nib1 w) 0 (fieldKk w), ← encodeS_eq, h, encodeS_eq, nib1_encodeI]
  · rw [← fieldKk_encodeI (nib1 w) 0 (fieldKk w), ← encodeS_eq, h, encodeS_eq, fieldKk_encodeI]

/-- In its own class, a row with a low nibble admits the words that end in it. -/
theorem admits_lowNibble {w : Word} {op : Nibble} (m : String) (low : Nibble) (h : nib1 w = op) :
    Row.admits ⟨m, 0xF00F, encodeR op 0 0 low⟩ w = decide ((nib4 w).toNat = low.toNat) := by
  rw [Bool.eq_iff_iff, Row.admits, beq_iff_eq, and_lowNibbleMask_iff, decide_eq_true_iff, BitVec.toNat_inj]
  exact and_iff_right h

/-- In its own class, a row with a low byte admits the words that end in it. -/
theorem admits_lowByte {w : Word} {op : Nibble} (m : String) (low : Byte) (h : nib1 w = op) :
    Row.admits ⟨m, 0xF0FF, encodeS op 0 low⟩ w = decide ((fieldKk w).toNat = low.toNat) := by
  rw [Bool.eq_iff_iff, Row.admits, beq_iff_eq, and_lowByteMask_iff, decide_eq_true_iff, BitVec.toNat_inj]
  exact and_iff_right h

/-! ### The rows of a class, and the decoder of that class -/

/-- The rows of opcode class `c` (30_encoding.md R77), in the table's order. -/
def classRows (c : Nibble) : List Row := opcodeTable.filter fun r => nib1 r.value == c

/-- Every mask keeps the class (30_encoding.md R75), so a row admits words of its own class only. -/
theorem mem_classRows_of_admits {r : Row} {w : Word} (hr : r ∈ opcodeTable) (h : r.admits w = true) :
    r ∈ classRows (nib1 w) := by
  have hmask : ∀ r ∈ opcodeTable, nib1 r.mask = BitVec.allOnes 4 := by decide
  have hn : nib1 (w &&& r.mask) = nib1 r.value := congrArg nib1 (beq_iff_eq.mp h)
  rw [nib1, BitVec.extractLsb'_and] at hn
  change nib1 w &&& nib1 r.mask = nib1 r.value at hn
  rw [hmask r hr, BitVec.and_allOnes] at hn
  exact List.mem_filter.mpr ⟨hr, beq_iff_eq.mpr hn.symm⟩

/-- Class 0 is three exact words (30_encoding.md R78). -/
theorem map_row_decodeClass0 {w : Word} (h : nib1 w = 0) :
    (decodeClass0 w).map Instr.row = (classRows (nib1 w)).find? (·.admits w) := by
  have hrows : classRows 0 = [⟨"NOP", 0xFFFF, 0x0000⟩, ⟨"CLS", 0xFFFF, 0x00E0⟩, ⟨"RET", 0xFFFF, 0x00EE⟩] := rfl
  have hexact (m : String) (v : Word) : Row.admits ⟨m, 0xFFFF, v⟩ w = decide (w = v) := by
    rw [Row.admits, show w &&& 0xFFFF = w from BitVec.and_allOnes]
    rfl
  rw [h, hrows, decodeClass0]
  simp only [List.find?_cons, hexact, List.find?_nil]
  split_ifs with h0 h1 h2
  case neg => simp [h0, h1, h2]
  all_goals
    subst w
    rfl

/-- Class 8 is told apart by the low nibble; the shifts fix `n3` as well (30_encoding.md R79), so their low byte is their
low nibble where `n3 = 0`, and they admit nothing elsewhere. -/
theorem map_row_decodeClass8 {w : Word} (h : nib1 w = 8) :
    (decodeClass8 w).map Instr.row = (classRows (nib1 w)).find? (·.admits w) := by
  have hrows : classRows 8 =
    [⟨"LD_REG", 0xF00F, encodeR 8 0 0 0⟩, ⟨"OR", 0xF00F, encodeR 8 0 0 1⟩, ⟨"AND", 0xF00F, encodeR 8 0 0 2⟩,
      ⟨"XOR", 0xF00F, encodeR 8 0 0 3⟩, ⟨"ADD_REG", 0xF00F, encodeR 8 0 0 4⟩, ⟨"SUB", 0xF00F, encodeR 8 0 0 5⟩,
      ⟨"SHR", 0xF0FF, encodeS 8 0 6⟩, ⟨"SUBN", 0xF00F, encodeR 8 0 0 7⟩, ⟨"SHL", 0xF0FF, encodeS 8 0 0xE⟩] := rfl
  have hshift (m : String) (low : Byte) (hlow : low.toNat < 16) : Row.admits ⟨m, 0xF0FF, encodeS 8 0 low⟩ w =
      decide (nib3 w = 0 ∧ (nib4 w).toNat = low.toNat) := by
    have h3 := nib3_toNat w
    have h4 := nib4_toNat w
    have h0 : nib3 w = 0 ↔ (nib3 w).toNat = 0 := BitVec.toNat_inj.symm
    rw [admits_lowByte m low h, decide_eq_decide, h0]
    omega
  rw [h, hrows, decodeClass8]
  simp only [List.find?_cons, admits_lowNibble _ _ h, hshift _ 6 (by decide), hshift _ 0xE (by decide), List.find?_nil]
  generalize (nib4 w).toNat = n
  by_cases h3 : nib3 w = 0
  all_goals
    simp only [h3, if_true, if_false, true_and, false_and]
    split
    case h_10 => simp_all
    all_goals rfl

theorem map_row_decodeClassE {w : Word} (h : nib1 w = 0xE) :
    (decodeClassE w).map Instr.row = (classRows (nib1 w)).find? (·.admits w) := by
  have hrows : classRows 0xE = [⟨"SKP", 0xF0FF, encodeS 0xE 0 0x9E⟩, ⟨"SKNP", 0xF0FF, encodeS 0xE 0 0xA1⟩] := rfl
  rw [h, hrows, decodeClassE]
  simp only [List.find?_cons, admits_lowByte _ _ h, List.find?_nil]
  generalize (fieldKk w).toNat = k
  split
  case h_3 => simp_all
  all_goals rfl

theorem map_row_decodeClassF {w : Word} (h : nib1 w = 0xF) :
    (decodeClassF w).map Instr.row = (classRows (nib1 w)).find? (·.admits w) := by
  have hrows : classRows 0xF =
    [⟨"LD_VX_DT", 0xF0FF, encodeS 0xF 0 0x07⟩, ⟨"LD_VX_K", 0xF0FF, encodeS 0xF 0 0x0A⟩,
      ⟨"LD_DT_VX", 0xF0FF, encodeS 0xF 0 0x15⟩, ⟨"LD_ST_VX", 0xF0FF, encodeS 0xF 0 0x18⟩,
      ⟨"ADD_I", 0xF0FF, encodeS 0xF 0 0x1E⟩, ⟨"LD_F", 0xF0FF, encodeS 0xF 0 0x29⟩,
      ⟨"LD_B", 0xF0FF, encodeS 0xF 0 0x33⟩, ⟨"LD_MEM_VX", 0xF0FF, encodeS 0xF 0 0x55⟩,
      ⟨"LD_VX_MEM", 0xF0FF, encodeS 0xF 0 0x65⟩] := rfl
  rw [h, hrows, decodeClassF]
  simp only [List.find?_cons, admits_lowByte _ _ h, List.find?_nil]
  generalize (fieldKk w).toNat = k
  split
  case h_10 => simp_all
  all_goals rfl

/-- A class of one row that looks at nothing but the class: the row is found. -/
theorem map_row_of_classMask {w : Word} {op : Nibble} {i : Instr} (h : nib1 w = op) (hrows : classRows op = [i.row])
    (hi : i.row = ⟨i.row.mnemonic, 0xF000, encodeA op 0⟩) :
    (some i).map Instr.row = (classRows (nib1 w)).find? (·.admits w) := by
  have hadmits : i.row.admits w = true := by
    rw [hi]
    exact beq_iff_eq.mpr ((and_classMask_iff w op).mpr h)
  rw [h, hrows, Option.map_some, List.find?_cons, hadmits]

/-- A class of one row that wants a low nibble of 0: the row is found exactly then. -/
theorem map_row_of_lowNibbleMask {w : Word} {op : Nibble} {i : Instr} (h : nib1 w = op) (hrows : classRows op = [i.row])
    (hi : i.row = ⟨i.row.mnemonic, 0xF00F, encodeR op 0 0 0⟩) :
    (if nib4 w = 0 then some i else none).map Instr.row = (classRows (nib1 w)).find? (·.admits w) := by
  have hadmits : i.row.admits w = decide (nib4 w = 0) := by
    rw [hi, admits_lowNibble _ _ h, decide_eq_decide, BitVec.toNat_inj]
  rw [h, hrows, List.find?_cons, hadmits]
  by_cases h4 : nib4 w = 0
  · rw [if_pos h4, decide_eq_true h4, Option.map_some]
  · rw [if_neg h4, decide_eq_false h4, Option.map_none, List.find?_nil]

/-! ### The decoder and the table -/

/-- The decoder's answer is the row of the word's class that admits the word (30_encoding.md R74, R77). -/
theorem map_row_decodeWord (w : Word) :
    (decodeWord w).map Instr.row = (classRows (nib1 w)).find? (·.admits w) := by
  have hop {n : Nat} (h : (nib1 w).toNat = n) : nib1 w = BitVec.ofNat 4 n := by
    rw [← h, BitVec.ofNat_toNat, BitVec.setWidth_eq]
  unfold decodeWord
  split
  case h_1 h => exact map_row_decodeClass0 (hop h)
  case h_6 h => exact map_row_of_lowNibbleMask (hop h) rfl rfl
  case h_9 h => exact map_row_decodeClass8 (hop h)
  case h_10 h => exact map_row_of_lowNibbleMask (hop h) rfl rfl
  case h_15 h => exact map_row_decodeClassE (hop h)
  case h_16 h => exact map_row_decodeClassF (hop h)
  case h_17 =>
    have hlt := (nib1 w).isLt
    simp only [imp_false] at *
    omega
  all_goals
    rename_i h
    exact map_row_of_classMask (hop h) rfl rfl

theorem row_admits_of_decodeWord {w : Word} {i : Instr} (h : decodeWord w = some i) : i.row.admits w = true := by
  have hfind := map_row_decodeWord w
  rw [h, Option.map_some] at hfind
  exact List.find?_some (p := fun r => Row.admits r w) hfind.symm

theorem not_admits_of_decodeWord_none {w : Word} (h : decodeWord w = none) {r : Row} (hr : r ∈ opcodeTable) :
    r.admits w = false := by
  have hfind := map_row_decodeWord w
  rw [h, Option.map_none] at hfind
  refine Bool.eq_false_iff.mpr fun hadmits => ?_
  exact List.find?_eq_none.mp hfind.symm r (mem_classRows_of_admits hr hadmits) hadmits

theorem row_mem (i : Instr) : i.row ∈ opcodeTable := List.get_mem _ _

/-- The rows are pairwise disjoint (30_encoding.md R76). -/
theorem eq_of_admits {r q : Row} {w : Word} (hr : r ∈ opcodeTable) (hq : q ∈ opcodeTable) (hrw : r.admits w = true)
    (hqw : q.admits w = true) : r = q := by
  have hdisjoint : ∀ r ∈ opcodeTable, ∀ q ∈ opcodeTable, r.value &&& q.mask = q.value &&& r.mask → r = q := by
    decide +kernel
  refine hdisjoint r hr q hq ?_
  rw [← beq_iff_eq.mp hrw, ← beq_iff_eq.mp hqw, BitVec.and_assoc, BitVec.and_assoc, BitVec.and_comm r.mask]

/-- Settles O7: the decoder's answer is the row that admits the word, and no two rows admit one word. -/
theorem decodingIsTheOpcodeTable : Obligations.DecodingIsTheOpcodeTable := by
  refine fun w => ⟨fun i hi => ⟨row_mem i, fun r hr => ⟨fun h => ?_, fun h => ?_⟩⟩, fun hnone r hr => ?_,
    fun hreject s hf hp hw => ?_⟩
  · exact eq_of_admits hr (row_mem i) h (row_admits_of_decodeWord hi)
  · rw [h]
    exact row_admits_of_decodeWord hi
  · exact not_admits_of_decodeWord_none hnone hr
  · have hnone : decodeWord w = none := by
      refine Option.eq_none_iff_forall_ne_some.mpr fun i hi => ?_
      exact absurd (row_admits_of_decodeWord hi) (by rw [hreject _ (row_mem i)]; decide)
    subst hw
    rcases step_cases s with ⟨h, -⟩ | ⟨-, h, -⟩ | ⟨-, -, -, he⟩ | ⟨-, -, i, hi, -⟩
    · exact absurd hf h
    · omega
    · exact ⟨_, he, s.takeFault_fault _⟩
    · rw [hnone] at hi
      cases hi

/-- Settles O3: the decoder run on the three pairs of bytes. -/
theorem sourceEncodingsDecode : Obligations.SourceEncodingsDecode := ⟨rfl, rfl, rfl⟩

end Sys2Proof.Machine

/-! PROOFS. The control flow family (40_control_flow.md). That the decoder reads back the word of every instruction; that an
instruction ends as its own fault's condition says; then no-op, jumps, call and return from the state each completes in. -/

namespace Sys2Proof.Machine

/-- The decoder reads the word of an instruction as that instruction, with its operands (30_encoding.md R72, R75). -/
theorem decodeWord_encode (i : Instr) : decodeWord (encode i) = some i := by
  cases i with
  | nop | cls | ret => rfl
  | jp nnn | call nnn | ldI nnn | jpV0 nnn =>
    simp [encode, decodeWord, nib1_encodeA, fieldNnn_encodeA]
  | seImm x kk | sneImm x kk | ldImm x kk | addImm x kk | rnd x kk =>
    simp [encode, decodeWord, nib1_encodeI, fieldX_encodeI, fieldKk_encodeI]
  | seReg x y | sneReg x y =>
    simp [encode, decodeWord, nib1_encodeR, nib4_encodeR, fieldX_encodeR, fieldY_encodeR]
  | ldReg x y | orReg x y | andReg x y | xorReg x y | addReg x y | sub x y | subn x y =>
    simp [encode, decodeWord, decodeClass8, nib1_encodeR, nib4_encodeR, fieldX_encodeR, fieldY_encodeR]
  | shr x | shl x =>
    simp [encode, decodeWord, decodeClass8, encodeS_eq, nib1_encodeI, nib3_encodeI, nib4_encodeI, fieldX_encodeI]
  | drw x y n => simp [encode, decodeWord, nib1_encodeD, fieldX_encodeD, fieldY_encodeD, fieldN_encodeD]
  | skp x | sknp x =>
    simp [encode, decodeWord, decodeClassE, encodeS_eq, nib1_encodeI, fieldX_encodeI, fieldKk_encodeI]
  | _ => simp [encode, decodeWord, decodeClassF, encodeS_eq, nib1_encodeI, fieldX_encodeI, fieldKk_encodeI]

/-- An instruction whose fault condition fails completes. -/
theorem exec_of_none {i : Instr} {s : State} (h : executionFault i s = none) : exec i s = .next (completed i s) :=
  (exec_eq_answer i s).trans (answer_of_none h)

/-- An instruction whose fault condition holds ends with that fault latched (60_exceptions.md R199). -/
theorem faults_of_executionFault {i : Instr} {s : State} {f : Fault} (h : executionFault i s = some f) : Faults i s f :=
  ⟨s.takeFault f, (exec_eq_answer i s).trans (answer_of_fault h), s.takeFault_fault f⟩

/-- Settles O23: CALL completes exactly below sixteen entries, and its push writes the entry at SP alone. -/
theorem callPushesOrOverflows : Obligations.CallPushesOrOverflows := by
  refine fun nnn s => ⟨decodeWord_encode (.call nnn), fun hsp => ?_, fun hsp => ?_⟩
  · have hcount : (completed (.call nnn) s).sp.val = s.sp.val + 1 := by
      change min (s.sp.val + 1) 16 = s.sp.val + 1
      omega
    refine ⟨completed (.call nnn) s, exec_of_none (if_neg hsp), rfl, addrWord_toNat nnn, hcount, fun k => ?_⟩
    simp only [completed, Fin.getElem_fin, Vector.getElem_setIfInBounds, eq_comm]
  · exact faults_of_executionFault (if_pos hsp)

/-- Settles O20: two zero bytes fetch as NOP, whose completed state is the advanced one. -/
theorem nopChangesNothing : Obligations.NopChangesNothing := by
  refine ⟨decodeWord_encode .nop, fun _ => exec_of_none rfl, fun s hf hp hhi hlo => ?_⟩
  have hfetch : fetchDecode s = .ok .nop := by
    rw [fetchDecode, fetchWord_of_le hp, hhi, hlo]
    rfl
  rw [step_of_fetchDecode hf hfetch]
  exact exec_of_none rfl

/-- Settles O21: RET completes exactly on a stack that holds an entry. -/
theorem retPopsOrUnderflows : Obligations.RetPopsOrUnderflows :=
  ⟨decodeWord_encode .ret, fun s =>
    ⟨fun hsp => ⟨completed .ret s, exec_of_none (if_neg hsp), rfl, rfl, rfl, rfl⟩,
      fun hsp => faults_of_executionFault (if_pos hsp)⟩⟩

/-- Settles O22: neither jump has a fault, and both targets fit the width of PC. -/
theorem jumpsSetOnlyPc : Obligations.JumpsSetOnlyPc := fun nnn s =>
  ⟨⟨decodeWord_encode (.jp nnn), completed (.jp nnn) s, exec_of_none rfl, rfl, addrWord_toNat nnn⟩,
    ⟨decodeWord_encode (.jpV0 nnn), completed (.jpV0 nnn) s, exec_of_none rfl, rfl, jumpOffset_toNat nnn (s.getV 0)⟩⟩

end Sys2Proof.Machine

/-! PROOFS. The skips family (41_skips.md). A skip completes as `State.skipIf` on its condition, and neither that condition nor
the skip's fault reads `PC`, so both may be asked of the state the Step began in. -/

namespace Sys2Proof.Machine

/-- A skip does nothing but advance `PC` once more where its condition holds (41_skips.md R110). -/
theorem completed_of_skipCondition {i : Instr} {s : State} {c : Bool} (h : skipCondition i s = some c) :
    completed i s = s.skipIf c := by
  cases i with
  | seImm x kk | sneImm x kk | seReg x y | sneReg x y =>
    obtain rfl := Option.some.inj h
    exact (s.skipIf_eq_setPc decide_eq_true_iff).symm
  | skp x =>
    obtain rfl := Option.some.inj h
    exact (s.skipIf_eq_setPc Iff.rfl).symm
  | sknp x =>
    obtain rfl := Option.some.inj h
    exact (s.skipIf_eq_setPc (Iff.of_eq (Bool.not_eq_true' _))).symm
  | _ => cases h

theorem skipCondition_advancePc (i : Instr) (s : State) : skipCondition i s.advancePc = skipCondition i s := by
  cases i <;> rfl

theorem executionFault_advancePc (i : Instr) (s : State) : executionFault i s.advancePc = executionFault i s := by
  cases i <;> rfl

theorem State.skipIf_onlyPc (s : State) (c : Bool) : OnlyPc s (s.skipIf c) := by
  cases c <;> rfl

/-- From a `PC` that fetches, neither advance wraps, not even at `p = 4094` (41_skips.md R110). -/
theorem State.advancePc_skipIf_pc_toNat {s : State} (hp : s.pc.toNat ≤ 4094) (c : Bool) :
    (s.advancePc.skipIf c).pc.toNat = s.pc.toNat + if c then 4 else 2 := by
  have h2 : (s.pc + 2#16).toNat = s.pc.toNat + 2 := s.advancePc_toNat hp
  cases c with
  | false => exact h2
  | true =>
    change (s.pc + 2#16 + 2#16).toNat = s.pc.toNat + 4
    bv_omega

/-- Settles O26: the Step is the fetch's advance, then `skipIf`; no byte after the skip's own word is read. -/
theorem skipStepNeverLooksAtTheSkippedWord : Obligations.SkipStepNeverLooksAtTheSkippedWord := by
  intro s i c hf hi hc hx
  have hstep : step s = .next (s.advancePc.skipIf c) := by
    rw [step_of_fetchDecode hf hi, exec_of_none ((executionFault_advancePc i s).trans hx),
      completed_of_skipCondition ((skipCondition_advancePc i s).trans hc)]
  have hframe : OnlyPc s (s.advancePc.skipIf c) := s.advancePc.skipIf_onlyPc c
  exact ⟨_, hstep, hframe, State.advancePc_skipIf_pc_toNat (pc_le_of_fetchDecode hi) c⟩

/-- Settles O25: a register skip has no fault, and its completed state sets `PC` alone. -/
theorem registerSkipsChangeOnlyPc : Obligations.RegisterSkipsChangeOnlyPc := fun x y kk _ =>
  ⟨⟨decodeWord_encode (.seImm x kk), exec_of_none rfl⟩, ⟨decodeWord_encode (.sneImm x kk), exec_of_none rfl⟩,
    ⟨decodeWord_encode (.seReg x y), exec_of_none rfl⟩, decodeWord_encode (.sneReg x y), exec_of_none rfl⟩

end Sys2Proof.Machine

/-! PROOFS. The arithmetic family (42_alu.md). What a register reads after a result and its flag, in either order of the two
writes; the byte operations as numbers; then the shape each instruction completes in. None of them has a fault. -/

namespace Sys2Proof.Machine

/-! ### Result and flag -/

/-- Result, then flag: at VF the flag stands, whatever the destination (42_alu.md R121). -/
theorem State.getV_resultThenFlag (s : State) (x k : Reg) (r : Byte) (c : Bool) :
    (s.resultThenFlag x r c).getV k = if k = vf then flagByte c else if k = x then r else s.getV k := by
  rw [State.resultThenFlag, State.getV_setFlag, State.getV_setV]

/-- Flag, then result: at the destination the result stands, computed from the flag itself where `x = 15`
(42_alu.md R121). -/
theorem State.getV_flagThenResult (s : State) (x k : Reg) (c : Bool) (f : Byte → Byte) :
    (s.flagThenResult x c f).getV k =
      if k = x then (if x = vf then f (flagByte c) else f (s.getV x)) else if k = vf then flagByte c else s.getV k := by
  rw [State.flagThenResult, State.getV_setV, State.getV_setFlag, State.getV_setFlag, apply_ite f]

theorem flagByte_eq_ofNat (c : Bool) : flagByte c = BitVec.ofNat 8 c.toNat := by
  cases c <;> rfl

/-! ### Byte operations as numbers -/

theorem byte_add_eq_ofNat (a b : Byte) : a + b = BitVec.ofNat 8 ((a.toNat + b.toNat) % 256) := by
  bv_omega

/-- The difference wraps at 256 exactly where it borrows (42_alu.md R122 (c)). -/
theorem byte_sub_eq_ofNat (a b : Byte) :
    a - b = BitVec.ofNat 8 (if b.toNat ≤ a.toNat then a.toNat - b.toNat else a.toNat + 256 - b.toNat) := by
  split <;> bv_omega

theorem byte_ushiftRight_one (b : Byte) : b >>> 1 = BitVec.ofNat 8 (b.toNat / 2) := by
  bv_omega

theorem byte_shiftLeft_one (b : Byte) : b <<< 1 = BitVec.ofNat 8 (2 * b.toNat % 256) := by
  bv_omega

theorem flagByte_shiftOutRight (b : Byte) : flagByte (shiftOutRight b) = BitVec.ofNat 8 (b.toNat % 2) := by
  rw [flagByte_eq_ofNat, shiftOutRight, BitVec.getLsbD, Nat.toNat_testBit, Nat.pow_zero, Nat.div_one]

theorem flagByte_shiftOutLeft (b : Byte) : flagByte (shiftOutLeft b) = BitVec.ofNat 8 (b.toNat / 128) := by
  rw [flagByte_eq_ofNat, shiftOutLeft, BitVec.getLsbD, Nat.toNat_testBit, Nat.mod_eq_of_lt (by omega)]

/-- What SHR leaves in VF as its own destination: a flag shifted out again (42_alu.md R132). -/
theorem flagByte_ushiftRight_one (c : Bool) : flagByte c >>> 1 = 0 := by
  cases c <;> rfl

/-- What SHL leaves in VF as its own destination: its flag, doubled (42_alu.md R134). -/
theorem flagByte_shiftOutLeft_shiftLeft_one (b : Byte) :
    flagByte (shiftOutLeft b) <<< 1 = BitVec.ofNat 8 (2 * (b.toNat / 128)) := by
  rw [flagByte_shiftOutLeft]
  bv_omega

/-! ### The three shapes an arithmetic instruction completes in -/

/-- One register write. -/
theorem writesOne_of_completed {i : Instr} {s : State} {x : Reg} {b : Byte} (hx : executionFault i s = none)
    (hc : completed i s = s.setV x b) : WritesOne i s x b :=
  ⟨s.setV x b, (exec_of_none hx).trans (congrArg _ hc), rfl, fun k => s.getV_setV x k b⟩

/-- A result, then a flag. -/
theorem writesThenFlag_of_completed {i : Instr} {s : State} {x : Reg} {r : Byte} {flag : Prop} [Decidable flag]
    (hx : executionFault i s = none) (hc : completed i s = s.resultThenFlag x r (decide flag)) :
    WritesThenFlag i s x r flag := by
  refine ⟨s.resultThenFlag x r (decide flag), (exec_of_none hx).trans (congrArg _ hc), rfl, fun k => ?_⟩
  simp only [State.getV_resultThenFlag, flagByte, decide_eq_true_iff]

theorem completed_shr (x : Reg) (s : State) :
    completed (.shr x) s = s.flagThenResult x (shiftOutRight (s.getV x)) (fun b => b >>> 1) := rfl

theorem completed_shl (x : Reg) (s : State) :
    completed (.shl x) s = s.flagThenResult x (shiftOutLeft (s.getV x)) (fun b => b <<< 1) := rfl

/-- A flag, then a result: `own` is what VF holds as its own destination, `r` what any other destination holds. -/
theorem exec_of_completed_flagThenResult {i : Instr} {s : State} {x : Reg} {c : Bool} {f : Byte → Byte} {own r flag : Byte}
    (hx : executionFault i s = none) (hc : completed i s = s.flagThenResult x c f) (hown : f (flagByte c) = own)
    (hr : f (s.getV x) = r) (hflag : flagByte c = flag) :
    ∃ t, exec i s = .next t ∧ OnlyV s t ∧ ∀ k, t.getV k =
      if k = x then (if x = vf then own else r) else if k = vf then flag else s.getV k := by
  subst hown hr hflag
  exact ⟨s.flagThenResult x c f, (exec_of_none hx).trans (congrArg _ hc), rfl, fun k => s.getV_flagThenResult x k c f⟩

/-- After a result and its flag, VF holds the flag, whatever the destination (42_alu.md R121). -/
theorem getV_vf_of_writesThenFlag {i : Instr} {s : State} {x : Reg} {b : Byte} {flag : Prop} [Decidable flag]
    (h : WritesThenFlag i s x b flag) : ∃ t, exec i s = .next t ∧ t.getV vf = if flag then 1 else 0 := by
  obtain ⟨t, ht, -, hk⟩ := h
  exact ⟨t, ht, (hk vf).trans (if_pos rfl)⟩

/-! ### The statements -/

/-- Settles O29: ADD completes as its sum, then its carry. -/
theorem addWritesSumThenCarry : Obligations.AddWritesSumThenCarry := by
  refine fun x y s => ⟨decodeWord_encode (.addReg x y), ?_⟩
  rw [← byte_add_eq_ofNat]
  exact writesThenFlag_of_completed rfl rfl

/-- Settles O30: each subtraction completes as its wrapped difference, then its not-borrow. -/
theorem subtractionsWriteDifferenceThenNotBorrow : Obligations.SubtractionsWriteDifferenceThenNotBorrow := by
  rintro x y s _ _ rfl rfl
  rw [← byte_sub_eq_ofNat, ← byte_sub_eq_ofNat]
  exact ⟨⟨decodeWord_encode (.sub x y), writesThenFlag_of_completed rfl rfl⟩,
    decodeWord_encode (.subn x y), writesThenFlag_of_completed rfl rfl⟩

/-- Settles O31: each shift completes as its flag, then the shift of the register as it then stands. -/
theorem shiftsCaptureTheBitShiftedOut : Obligations.ShiftsCaptureTheBitShiftedOut := by
  rintro x s _ rfl
  refine ⟨⟨decodeWord_encode (.shr x), ?_⟩, decodeWord_encode (.shl x), ?_⟩
  · exact exec_of_completed_flagThenResult rfl (completed_shr x s) (flagByte_ushiftRight_one _)
      (byte_ushiftRight_one _) (flagByte_shiftOutRight _)
  · exact exec_of_completed_flagThenResult rfl (completed_shl x s) (flagByte_shiftOutLeft_shiftLeft_one _)
      (byte_shiftLeft_one _) (flagByte_shiftOutLeft _)

/-- Settles O32: O29, O30 and O31 read at VF, with VF as the destination. -/
theorem flagOrderWhenTheDestinationIsVF : Obligations.FlagOrderWhenTheDestinationIsVF := by
  rintro y s _ _ rfl rfl
  obtain ⟨-, hadd⟩ := addWritesSumThenCarry vf y s
  obtain ⟨⟨-, hsub⟩, -, hsubn⟩ := subtractionsWriteDifferenceThenNotBorrow vf y s _ _ rfl rfl
  obtain ⟨⟨-, t, ht, -, hshr⟩, -, u, hu, -, hshl⟩ := shiftsCaptureTheBitShiftedOut vf s _ rfl
  have hdouble : BitVec.ofNat 8 (2 * ((s.getV vf).toNat / 128)) = if (s.getV vf).toNat < 128 then 0 else 2 := by
    split <;> bv_omega
  exact ⟨getV_vf_of_writesThenFlag hadd, getV_vf_of_writesThenFlag hsub, getV_vf_of_writesThenFlag hsubn,
    ⟨t, ht, hshr vf⟩, u, hu, (hshl vf).trans hdouble⟩

/-- Settles O27: each of the three completes as one register write. -/
theorem registerLoadsAndImmediateAdd : Obligations.RegisterLoadsAndImmediateAdd := by
  intro x y kk s
  rw [← byte_add_eq_ofNat]
  exact ⟨⟨decodeWord_encode (.ldImm x kk), writesOne_of_completed rfl rfl⟩,
    ⟨decodeWord_encode (.addImm x kk), writesOne_of_completed rfl rfl⟩,
    decodeWord_encode (.ldReg x y), writesOne_of_completed rfl rfl⟩

/-- Settles O28: each logic instruction completes as one register write. -/
theorem logicWritesOnlyTheDestination : Obligations.LogicWritesOnlyTheDestination := fun x y _ =>
  ⟨⟨decodeWord_encode (.orReg x y), writesOne_of_completed rfl rfl⟩,
    ⟨decodeWord_encode (.andReg x y), writesOne_of_completed rfl rfl⟩,
    decodeWord_encode (.xorReg x y), writesOne_of_completed rfl rfl⟩

end Sys2Proof.Machine

/-! PROOFS. The index and memory family (43_index_memory.md). The values written to `I` as numbers; what a stored byte, and
an address outside the bytes stored, reads as once the instruction has completed. Each statement follows its lemmas. -/

namespace Sys2Proof.Machine

/-! ### The address register -/

/-- ADD I wraps at the width of `I`, 65536, not at 4096 (43_index_memory.md R142). -/
theorem add_byteWord_toNat (w : Word) (b : Byte) : (w + byteWord b).toNat = (w.toNat + b.toNat) % 65536 := by
  rw [byteWord, BitVec.toNat_add, BitVec.toNat_setWidth_of_le (by decide)]

/-- The glyph address of the greatest byte is 1275, so nothing is cut off (43_index_memory.md R143, D23). -/
theorem glyphAddress_toNat (b : Byte) : (glyphAddress b).toNat = 5 * b.toNat := by
  change (0 + 5 * b.toNat) % 65536 = 5 * b.toNat
  omega

/-- One write of `I`. -/
theorem writesI_of_completed {i : Instr} {s : State} {w : Word} {n : Nat} (hx : executionFault i s = none)
    (hc : completed i s = s.setI w) (hn : w.toNat = n) : WritesI i s n :=
  ⟨s.setI w, (exec_of_none hx).trans (congrArg _ hc), rfl, hn⟩

/-- Settles O35: each of the three completes as one write of `I`. -/
theorem indexInstructionsWriteOnlyI : Obligations.IndexInstructionsWriteOnlyI := fun nnn x s =>
  ⟨⟨decodeWord_encode (.ldI nnn), writesI_of_completed rfl rfl (addrWord_toNat nnn)⟩,
    ⟨decodeWord_encode (.addI x), writesI_of_completed rfl rfl (add_byteWord_toNat s.i (s.getV x))⟩,
    decodeWord_encode (.ldF x), writesI_of_completed rfl rfl (glyphAddress_toNat (s.getV x))⟩

/-! ### Stores -/

/-- The `j`-th address stored to reads as the `j`-th byte stored. -/
theorem completed_mem_get_inside {i : Instr} {s : State} (hx : executionFault i s = none) {j : Nat}
    (hj : j < (storedBytes i s).length) : (completed i s).mem.get (s.ea j) = (storedBytes i s)[j] := by
  rw [completed_mem]
  exact Memory.get_putBytes_inside _ _ _ hj (storedBytes_fit hx (Nat.zero_lt_of_lt hj))

/-- An address outside the bytes stored reads as before. -/
theorem completed_mem_get_outside {i : Instr} {s : State} {a : Nat}
    (ha : a < s.ea 0 ∨ s.ea 0 + (storedBytes i s).length ≤ a) : (completed i s).mem.get a = s.mem.get a := by
  rw [completed_mem]
  exact Memory.get_putBytes_outside _ _ _ ha

/-- Settles O36: LD B completes exactly where three bytes fit, and its stored bytes are the digits. -/
theorem bcdStoresThreeDigits : Obligations.BcdStoresThreeDigits := by
  rintro x s _ rfl
  refine ⟨decodeWord_encode (.ldB x), fun hi => ?_, fun hi => faults_of_executionFault (if_pos (by omega))⟩
  have hx : executionFault (.ldB x) s = none := if_neg (by omega)
  have hdigit {j n : Nat} (hj : j < 3) (hn : (bcdDigits (s.getV x))[j] = BitVec.ofNat 8 n) (hlt : n < 256) :
      ((completed (.ldB x) s).mem.get (s.ea j)).toNat = n := by
    rw [completed_mem_get_inside hx hj]
    exact (congrArg BitVec.toNat hn).trans ((BitVec.toNat_ofNat n 8).trans (Nat.mod_eq_of_lt hlt))
  exact ⟨completed (.ldB x) s, exec_of_none hx, rfl, hdigit (by decide) rfl (by omega), hdigit (by decide) rfl (by omega),
    hdigit (by decide) rfl (by omega),
    fun a ha => completed_mem_get_outside ha⟩

/-- Settles O37: LD [I], Vx completes exactly where `x + 1` bytes fit, and its stored bytes are the registers. -/
theorem registerStoreWritesTheRange : Obligations.RegisterStoreWritesTheRange := by
  refine fun x s => ⟨decodeWord_encode (.ldMemVx x), fun hi => ?_, fun hi => faults_of_executionFault (if_pos (by omega))⟩
  have hx : executionFault (.ldMemVx x) s = none := if_neg (by omega)
  have hlen : (storedBytes (.ldMemVx x) s).length = x.val + 1 := s.registersUpTo_length x
  refine ⟨completed (.ldMemVx x) s, exec_of_none hx, rfl, fun k hk => ?_, fun a ha => ?_⟩
  · rw [completed_mem_get_inside hx (by omega)]
    exact s.registersUpTo_getElem x k.val _
  · have hea : s.ea x.val = s.ea 0 + x.val := rfl
    exact completed_mem_get_outside (by omega)

/-! ### Loads -/

/-- Settles O38: LD Vx, [I] completes exactly where `x + 1` bytes fit, with the registers of `State.loadRegisters`. -/
theorem registerLoadReadsTheRange : Obligations.RegisterLoadReadsTheRange := fun x s =>
  ⟨decodeWord_encode (.ldVxMem x),
    fun hi => ⟨completed (.ldVxMem x) s, exec_of_none (if_neg (by omega)), rfl, s.getV_loadRegisters x⟩,
    fun hi => faults_of_executionFault (if_pos (by omega))⟩

end Sys2Proof.Machine

/-! PROOFS. The display family (44_display.md). What a DRW that completes leaves of each pixel and of VF, said through
`State.Covers`; and that a draw at registers other than VF moves neither its own sprite nor its own fault. -/

namespace Sys2Proof.Machine

/-! ### One draw -/

/-- A draw toggles a pixel its sprite covers (44_display.md R152). -/
theorem completed_drw_pixel_of_covers {s : State} {x y : Reg} {n : Fin 16} {px : Fin 64} {py : Fin 32}
    (h : s.Covers x y n px py) : (completed (.drw x y n) s).display.pixel px py = !s.display.pixel px py := by
  obtain ⟨htoggled, -, -⟩ := s.sprite_eq x y n
  exact htoggled px py h

/-- A draw leaves a pixel its sprite does not cover (44_display.md R152). -/
theorem completed_drw_pixel_of_not_covers {s : State} {x y : Reg} {n : Fin 16} {px : Fin 64} {py : Fin 32}
    (h : ¬s.Covers x y n px py) : (completed (.drw x y n) s).display.pixel px py = s.display.pixel px py := by
  obtain ⟨-, hkept, -⟩ := s.sprite_eq x y n
  exact hkept px py h

theorem flagByte_eq_one_iff (b : Bool) : flagByte b = 1 ↔ b = true := by
  cases b <;> decide

theorem flagByte_eq_zero_iff (b : Bool) : flagByte b = 0 ↔ b = false := by
  cases b <;> decide

theorem completed_drw_getV_vf (x y : Reg) (n : Fin 16) (s : State) :
    (completed (.drw x y n) s).getV vf = flagByte (s.sprite x y n).2 :=
  (State.getV_setFlag _ vf _).trans (if_pos rfl)

/-- A draw writes no register but VF (44_display.md R152). -/
theorem completed_drw_getV_ne {k : Reg} (hk : k ≠ vf) (x y : Reg) (n : Fin 16) (s : State) :
    (completed (.drw x y n) s).getV k = s.getV k :=
  completed_getV (i := .drw x y n) (decide_eq_false hk) s

/-- A draw sets VF exactly where a covered pixel was on (44_display.md R152). -/
theorem completed_drw_getV_vf_eq_one_iff (x y : Reg) (n : Fin 16) (s : State) :
    (completed (.drw x y n) s).getV vf = 1 ↔ ∃ px py, s.Covers x y n px py ∧ s.display.pixel px py = true := by
  obtain ⟨-, -, hflag⟩ := s.sprite_eq x y n
  rw [completed_drw_getV_vf, flagByte_eq_one_iff, hflag]

/-- A draw clears VF exactly where every covered pixel was off (44_display.md R152). -/
theorem completed_drw_getV_vf_eq_zero_iff (x y : Reg) (n : Fin 16) (s : State) :
    (completed (.drw x y n) s).getV vf = 0 ↔ ∀ px py, s.Covers x y n px py → s.display.pixel px py = false := by
  obtain ⟨-, -, hflag⟩ := s.sprite_eq x y n
  rw [completed_drw_getV_vf, flagByte_eq_zero_iff, Bool.eq_false_iff, Ne, hflag]
  simp only [not_exists, not_and, Bool.not_eq_true]

/-- Settles O43: DRW completes exactly where its rows fit or it has none, as its sprite's cells say. -/
theorem drawTogglesCoveredPixelsAndReportsCollision : Obligations.DrawTogglesCoveredPixelsAndReportsCollision := by
  refine fun x y n s => ⟨decodeWord_encode (.drw x y n), fun hn => ?_,
    fun hn hi => faults_of_executionFault (if_pos ⟨hn, hi⟩)⟩
  have hx : executionFault (.drw x y n) s = none := if_neg (by omega)
  exact ⟨completed (.drw x y n) s, exec_of_none hx, rfl, fun _ _ => completed_drw_pixel_of_covers,
    fun _ _ => completed_drw_pixel_of_not_covers, fun _ hk => completed_drw_getV_ne hk x y n s,
    (completed_drw_getV_vf_eq_one_iff x y n s).mpr, (completed_drw_getV_vf_eq_zero_iff x y n s).mpr⟩

/-! ### The same draw again -/

section SecondDraw

variable {x y : Reg} (n : Fin 16) (s : State)

/-- A draw moves none of the coordinates its sprite is placed by, unless VF is one of them (44_display.md R155). -/
theorem completed_drw_covers_iff (hxf : x ≠ vf) (hyf : y ≠ vf) (px : Fin 64) (py : Fin 32) :
    (completed (.drw x y n) s).Covers x y n px py ↔ s.Covers x y n px py := by
  rw [State.Covers, completed_drw_getV_ne hxf, completed_drw_getV_ne hyf]
  rfl

/-- A second draw of one sprite restores every pixel: twice toggled or twice left alone. -/
theorem completed_drw_twice_display (hxf : x ≠ vf) (hyf : y ≠ vf) :
    (completed (.drw x y n) (completed (.drw x y n) s)).display = s.display := by
  refine Display.ext_pixel fun px py => ?_
  have hcov := completed_drw_covers_iff n s hxf hyf px py
  by_cases h : s.Covers x y n px py
  · rw [completed_drw_pixel_of_covers (hcov.mpr h), completed_drw_pixel_of_covers h, Bool.not_not]
  · rw [completed_drw_pixel_of_not_covers (mt hcov.mp h), completed_drw_pixel_of_not_covers h]

/-- What a draw has turned on is what its sprite covers and is on afterwards. -/
theorem turnedOn_iff_covers (px : Fin 64) (py : Fin 32) :
    (s.display.pixel px py = false ∧ (completed (.drw x y n) s).display.pixel px py = true) ↔
      s.Covers x y n px py ∧ (completed (.drw x y n) s).display.pixel px py = true := by
  by_cases h : s.Covers x y n px py
  · simp [h, completed_drw_pixel_of_covers h]
  · simp [h, completed_drw_pixel_of_not_covers h]

/-- The second of two draws of one sprite collides exactly where the first turned a pixel on (44_display.md R155). -/
theorem completed_drw_twice_getV_vf (hxf : x ≠ vf) (hyf : y ≠ vf) :
    (completed (.drw x y n) (completed (.drw x y n) s)).getV vf = 1 ↔
      ∃ px py, s.display.pixel px py = false ∧ (completed (.drw x y n) s).display.pixel px py = true := by
  simp only [completed_drw_getV_vf_eq_one_iff, completed_drw_covers_iff n s hxf hyf, turnedOn_iff_covers]

end SecondDraw

/-- Settles O44: a draw leaves `I`, so the second completes where the first does, over the same pixels. -/
theorem drawIsSelfInverse : Obligations.DrawIsSelfInverse := by
  intro x y n s t u hxf hyf hs ht hu
  obtain ⟨hx, rfl⟩ := completed_of_exec hs ht
  have hx' : executionFault (.drw x y n) (completed (.drw x y n) s) = none := hx
  rw [exec_of_none hx'] at hu
  obtain rfl := Host.Outcome.next.inj hu
  exact ⟨completed_drw_twice_display n s hxf hyf, completed_drw_twice_getV_vf n s hxf hyf⟩

/-! ### Clearing -/

/-- Settles O42: CLS has no fault, and completes with the clear bitmap. -/
theorem clsTurnsEveryPixelOff : Obligations.ClsTurnsEveryPixelOff :=
  ⟨decodeWord_encode .cls, fun s =>
    ⟨completed .cls s, exec_of_none rfl, rfl, fun _ => Display.pixel_clear _ _⟩⟩

end Sys2Proof.Machine

/-! PROOFS. The keypad and timer family (45_keypad_timers.md). What the key scan finds, from what the key latch holds; the
state LD Vx, K completes in, for either answer of the scan; that its rewind undoes the fetch's advance. -/

namespace Sys2Proof.Machine

/-! ### The key scan -/

theorem State.firstKey_eq_none_of_not_keyDown {s : State} (h : ∀ j, s.keyDown j = false) : s.firstKey = none :=
  List.find?_eq_none.mpr fun j _ => by simp [h j]

/-- The scan answers the least key that is down (45_keypad_timers.md R163). -/
theorem State.firstKey_eq_some_of_least {s : State} {k : Key} (hk : s.keyDown k = true)
    (hleast : ∀ j : Key, j.val < k.val → s.keyDown j = false) : s.firstKey = some k := by
  rcases s.firstKey_eq with ⟨-, hnone⟩ | ⟨m, hm, hdown, hbelow⟩
  · exact absurd hk (Bool.eq_false_iff.mp (hnone k))
  · have hmk : ¬m.val < k.val := fun h => Bool.eq_false_iff.mp (hleast m h) hdown
    have hkm : ¬k.val < m.val := fun h => Bool.eq_false_iff.mp (hbelow k h) hk
    obtain rfl : m = k := Fin.ext (by omega)
    exact hm

/-! ### The key wait -/

theorem completed_ldVxK_of_firstKey_none {s : State} (h : s.firstKey = none) (x : Reg) :
    completed (.ldVxK x) s = s.rewindPc := by
  rw [completed, h, Option.elim_none]

theorem completed_ldVxK_of_firstKey_some {s : State} {k : Key} (h : s.firstKey = some k) (x : Reg) :
    completed (.ldVxK x) s = s.setV x (keyByte k) := by
  rw [completed, h, Option.elim_some]

/-- With no key down the key wait takes the rewind of `PC` (45_keypad_timers.md R163). -/
theorem exec_ldVxK_of_not_keyDown {s : State} (h : ∀ j, s.keyDown j = false) (x : Reg) :
    exec (.ldVxK x) s = .next s.rewindPc := by
  rw [exec_of_none rfl, completed_ldVxK_of_firstKey_none (State.firstKey_eq_none_of_not_keyDown h)]

/-- The rewind undoes the fetch's advance, whatever `PC` holds (45_keypad_timers.md R163). -/
theorem State.rewindPc_advancePc (s : State) : s.advancePc.rewindPc = s := by
  have hpc : s.pc + 2#16 - 2#16 = s.pc := BitVec.add_sub_cancel _ _
  change { s with pc := s.pc + 2#16 - 2#16 } = s
  rw [hpc]

/-- Settles O47: the key scan's answer decides between the register write and the rewind, and the rewind of the advanced
state is the state itself. -/
theorem keyWaitTakesTheLowestKeyOrWaits : Obligations.KeyWaitTakesTheLowestKeyOrWaits := by
  refine fun x s => ⟨decodeWord_encode (.ldVxK x), fun hnone => exec_ldVxK_of_not_keyDown hnone x, fun k hk hleast => ?_,
    fun hnone hf hi => ?_⟩
  · have hfirst : s.firstKey = some k := State.firstKey_eq_some_of_least hk hleast
    exact writesOne_of_completed rfl (completed_ldVxK_of_firstKey_some hfirst x)
  · have hnone' : ∀ j, s.advancePc.keyDown j = false := hnone
    calc step s = exec (.ldVxK x) s.advancePc := step_of_fetchDecode hf hi
      _ = .next s.advancePc.rewindPc := exec_ldVxK_of_not_keyDown hnone' x
      _ = .next s := by rw [s.rewindPc_advancePc]

/-! ### The key skips -/

/-- Settles O46: a key skip completes exactly where `V[x]` names a key, and its completed state sets `PC` alone. -/
theorem keySkipsReadTheLatch : Obligations.KeySkipsReadTheLatch := by
  rintro x s _ rfl
  refine ⟨decodeWord_encode (.skp x), decodeWord_encode (.sknp x), fun hk => ?_, fun hk => ?_⟩
  · have hin : ¬15 < (s.getV x).toNat := Nat.not_lt.mpr hk
    exact ⟨exec_of_none (if_neg hin), exec_of_none (if_neg hin)⟩
  · exact ⟨faults_of_executionFault (if_pos hk), faults_of_executionFault (if_pos hk)⟩

/-! ### The timers -/

/-- Settles O48: no timer access has a fault, and each completes as one write. -/
theorem timerAccessesCopyOneByte : Obligations.TimerAccessesCopyOneByte := fun x _ =>
  ⟨⟨decodeWord_encode (.ldVxDt x), writesOne_of_completed rfl rfl⟩,
    ⟨decodeWord_encode (.ldDtVx x), exec_of_none rfl⟩,
    decodeWord_encode (.ldStVx x), exec_of_none rfl⟩

end Sys2Proof.Machine

/-! PROOFS. The host interface family (48_host_interface.md). What fetch and decode answer and which Steps end safely; what a Step
that gives back its own state must have run; then the host's other operations, one function at a time. -/

namespace Sys2Proof.Machine

/-! ### Fetch and decode -/

theorem fetchDecode_of_fetchWord_error {s : State} {f : Fault} (h : fetchWord s = .error f) :
    fetchDecode s = .error f := by
  simp [fetchDecode, h]

theorem fetchDecode_of_decodeWord_none {s : State} {w : Word} (h : fetchWord s = .ok w) (hw : decodeWord w = none) :
    fetchDecode s = .error (.decodeFailure w s.pc) := by
  simp [fetchDecode, h, hw]

theorem fetchDecode_of_decodeWord_some {s : State} {w : Word} {i : Instr} (h : fetchWord s = .ok w)
    (hw : decodeWord w = some i) : fetchDecode s = .ok i := by
  simp [fetchDecode, h, hw]

/-- An instruction fetched is the decoder's reading of the word fetched. -/
theorem fetchWord_of_fetchDecode {s : State} {i : Instr} (h : fetchDecode s = .ok i) :
    ∃ w, fetchWord s = .ok w ∧ decodeWord w = some i := by
  rcases hw : fetchWord s with f | w
  · rw [fetchDecode_of_fetchWord_error hw] at h
    cases h
  · cases hd : decodeWord w with
    | none =>
      rw [fetchDecode_of_decodeWord_none hw hd] at h
      cases h
    | some j =>
      rw [fetchDecode_of_decodeWord_some hw hd] at h
      cases h
      exact ⟨w, rfl, hd⟩

/-! ### The Step -/

theorem step_of_fault {s : State} (h : s.fault ≠ none) : step s = .next s := by
  obtain ⟨f, hf⟩ := Option.ne_none_iff_exists'.mp h
  simp [step, hf]

/-- A fetch or decode that fails ends the Step with its fault latched (60_exceptions.md R198, R199). -/
theorem step_of_fetchDecode_error {s : State} {f : Fault} (hf : s.fault = none) (h : fetchDecode s = .error f) :
    step s = .next (s.takeFault f) := by
  simp [step, hf, h, raise]

/-- A Step that leaves no fault has run an instruction to completion. -/
theorem completed_of_step {s t : State} (h : step s = .next t) (ht : t.fault = none) (hf : s.fault = none) :
    ∃ i, fetchDecode s = .ok i ∧ executionFault i s.advancePc = none ∧ t = completed i s.advancePc := by
  rcases hi : fetchDecode s with f | i
  · rw [step_of_fetchDecode_error hf hi] at h
    cases h
    cases ht
  · rw [step_of_fetchDecode hf hi] at h
    exact ⟨i, rfl, completed_of_exec h ht⟩

/-- Settles O9: the three outcomes are those of fetch and decode. -/
theorem stepFetchesDecodesExecutes : Obligations.StepFetchesDecodesExecutes := by
  refine fun s => ⟨step_of_fault, fun hf => ⟨fun hp => ?_, fun hp w hw => ?_⟩⟩
  · have hfetch : fetchWord s = .error (.fetchOutOfRange s.pc) := by
      rcases fetchWord_eq s with ⟨hle, -⟩ | ⟨-, he⟩
      · omega
      · exact he
    exact ⟨_, step_of_fetchDecode_error hf (fetchDecode_of_fetchWord_error hfetch), rfl⟩
  · have hfetch : fetchWord s = .ok w := hw ▸ fetchWord_of_le hp
    exact ⟨fun hd => ⟨_, step_of_fetchDecode_error hf (fetchDecode_of_decodeWord_none hfetch hd), rfl⟩,
      fun i hd => step_of_fetchDecode hf (fetchDecode_of_decodeWord_some hfetch hd)⟩

/-! ### The states a Step maps to themselves -/

/-- JP is the whole of its class: its word is the class nibble and the target (30_encoding.md R77). -/
theorem encode_of_decodeWord_jp {w : Word} {nnn : Addr12} (h : decodeWord w = some (.jp nnn)) : encode (.jp nnn) = w := by
  have hclass : nib1 w = 1 := (and_classMask_iff w 1).mp (beq_iff_eq.mp (row_admits_of_decodeWord h))
  have hfield : fieldNnn w = nnn := by simpa [decodeWord, hclass] using h
  calc encode (.jp nnn) = encodeA (nib1 w) (fieldNnn w) := by rw [hclass, hfield]; rfl
    _ = w := encodeA_fields w

theorem encode_jp (nnn : Addr12) : encode (.jp nnn) = 0x1000 + addrWord nnn := by
  apply BitVec.eq_of_toNat_eq
  have hlt := nnn.isLt
  change (1#4 ++ nnn).toNat = _
  rw [BitVec.toNat_append, BitVec.toNat_add, addrWord_toNat, ← Nat.shiftLeft_add_eq_or_of_lt hlt]
  change 4096 + nnn.toNat = (4096 + nnn.toNat) % 65536
  omega

theorem addrWord_eq_iff (nnn : Addr12) (w : Word) : addrWord nnn = w ↔ nnn.toNat = w.toNat := by
  rw [← BitVec.toNat_inj, addrWord_toNat]

/-- The conventional end of a run is a JP to its own address: the word `0x1000 + PC` is that JP's, for every `PC` a fetch
is possible at (48_host_interface.md R183). -/
theorem State.ended_iff {s : State} (hf : s.fault = none) :
    s.Ended ↔ ∃ nnn : Addr12, fetchDecode s = .ok (.jp nnn) ∧ nnn.toNat = s.pc.toNat := by
  constructor
  · rintro ⟨-, hw⟩
    have hp : s.pc.toNat ≤ 4094 := by
      rcases fetchWord_eq s with ⟨hp, -⟩ | ⟨-, he⟩
      · exact hp
      · rw [he] at hw
        cases hw
    have hn : (BitVec.ofNat 12 s.pc.toNat).toNat = s.pc.toNat := Nat.mod_eq_of_lt (by omega)
    have hword : encode (.jp (BitVec.ofNat 12 s.pc.toNat)) = 0x1000 + s.pc := by
      rw [encode_jp, (addrWord_eq_iff _ _).mpr hn]
    exact ⟨_, fetchDecode_of_decodeWord_some hw (hword ▸ decodeWord_encode _), hn⟩
  · rintro ⟨nnn, hi, hn⟩
    obtain ⟨w, hw, hd⟩ := fetchWord_of_fetchDecode hi
    refine ⟨hf, ?_⟩
    rw [hw, ← encode_of_decodeWord_jp hd, encode_jp, (addrWord_eq_iff nnn s.pc).mpr hn]

/-- The instructions that leave the state their Step began in: a jump to `PC` itself, or a key wait with no key down
(48_host_interface.md R183). -/
def LeavesState (i : Instr) (s : State) : Prop :=
  match i with
  | .jp nnn => nnn.toNat = s.pc.toNat
  | .jpV0 nnn => nnn.toNat + (s.getV 0).toNat = s.pc.toNat
  | .ldVxK _ => ∀ k, s.keyDown k = false
  | _ => False

theorem State.eq_of_onlyPc {s t : State} (h : OnlyPc s t) (hpc : t.pc.toNat = s.pc.toNat) : t = s :=
  h.trans (by rw [BitVec.eq_of_toNat_eq hpc])

/-- An instruction that puts `PC` back where the Step began is one of the three kinds, or a CALL or RET, which move SP. -/
theorem leavesState_of_completed_eq {i : Instr} {s : State} (hp : s.pc.toNat ≤ 4094)
    (hx : executionFault i s.advancePc = none) (h : completed i s.advancePc = s) : LeavesState i s := by
  have hpc : pcAfter i s = s.pc.toNat := by rw [← completed_pc hp hx, h]
  have hsp : (completed i s.advancePc).sp.val = s.sp.val := by rw [h]
  have hskip (c : Prop) [Decidable c] : (if c then s.pc.toNat + 4 else s.pc.toNat + 2) ≠ s.pc.toNat := by split <;> omega
  cases i with
  | jp nnn | jpV0 nnn => exact hpc
  | ldVxK x =>
    have hkeys : s.keys = 0 := by simpa [pcAfter] using hpc
    intro k
    simp [State.keyDown, hkeys]
  | call nnn =>
    have hroom : s.sp.val ≠ 16 := fun he => by simp [executionFault, he] at hx
    change min (s.sp.val + 1) 16 = s.sp.val at hsp
    omega
  | ret =>
    have hheld : s.sp.val ≠ 0 := fun he => by simp [executionFault, he] at hx
    change s.sp.val - 1 = s.sp.val at hsp
    omega
  | seImm x kk | sneImm x kk | seReg x y | sneReg x y | skp x | sknp x => exact hskip _ hpc
  | _ =>
    change s.pc.toNat + 2 = s.pc.toNat at hpc
    omega

theorem step_of_leavesState {i : Instr} {s : State} (hf : s.fault = none) (hi : fetchDecode s = .ok i)
    (h : LeavesState i s) : step s = .next s := by
  cases i with
  | jp nnn | jpV0 nnn =>
    rw [step_of_fetchDecode hf hi, exec_of_none rfl]
    exact congrArg _ (State.eq_of_onlyPc rfl ((completed_pc (pc_le_of_fetchDecode hi) rfl).trans h))
  | ldVxK x =>
    obtain ⟨-, -, -, hwait⟩ := keyWaitTakesTheLowestKeyOrWaits x s
    exact hwait h hf hi
  | _ => exact h.elim

/-- The Steps that change nothing, on a machine that is not faulted. -/
theorem step_eq_self_iff {s : State} (hf : s.fault = none) :
    step s = .next s ↔ ∃ i, fetchDecode s = .ok i ∧ LeavesState i s := by
  constructor
  · intro h
    obtain ⟨i, hi, hx, hs⟩ := completed_of_step h hf hf
    exact ⟨i, hi, leavesState_of_completed_eq (pc_le_of_fetchDecode hi) hx hs.symm⟩
  · rintro ⟨i, hi, h⟩
    exact step_of_leavesState hf hi h

/-- Settles O14: a Step changes nothing exactly when it runs one of the three kinds, the first of them the end of a run. -/
theorem stepFixesExactlyThreeKindsOfState : Obligations.StepFixesExactlyThreeKindsOfState := by
  refine fun s hf => ⟨State.ended_iff hf, (step_eq_self_iff hf).trans ⟨?_, ?_⟩⟩
  · rintro ⟨i, hi, h⟩
    cases i with
    | jp nnn => exact .inl ⟨nnn, hi, h⟩
    | jpV0 nnn => exact .inr (.inl ⟨nnn, hi, h⟩)
    | ldVxK x => exact .inr (.inr ⟨x, hi, h⟩)
    | _ => exact h.elim
  · rintro (⟨nnn, hi, h⟩ | ⟨nnn, hi, h⟩ | ⟨x, hi, h⟩) <;> exact ⟨_, hi, h⟩

/-! ### TimerTick -/

theorem countDown_toNat (b : Byte) : (countDown b).toNat = b.toNat - 1 := by
  unfold countDown
  split
  · next h => simp [h]
  · next h => bv_omega

theorem timerTick_of_fault {s : State} (h : s.fault ≠ none) : timerTick s = s := by
  obtain ⟨f, hf⟩ := Option.ne_none_iff_exists'.mp h
  simp [timerTick, hf]

theorem timerTick_of_safe {s : State} (h : s.fault = none) :
    timerTick s = (s.setDt (countDown s.dt)).setSt (countDown s.st) := by
  simp [timerTick, h]

/-- Settles O51: each timer is counted down once, and nothing else is written. -/
theorem timerTickDecrementsOnceAndStopsAtZero : Obligations.TimerTickDecrementsOnceAndStopsAtZero := fun s =>
  ⟨timerTick_of_fault, fun hf =>
    ⟨_, timerTick_of_safe hf, rfl, countDown_toNat s.dt, countDown_toNat s.st⟩⟩

/-! ### KeySet -/

/-- The latch after one key is set: that key's bit is the value set, every other bit is as before. -/
theorem latchKey_getLsbD (keys : BitVec 16) (k : Nat) (pressed : Bool) (j : Key) :
    (latchKey keys k pressed).getLsbD j.val = if j.val = k then pressed else keys.getLsbD j.val := by
  have hbit : (BitVec.twoPow 16 k).getLsbD j.val = decide (j.val = k) := by
    rw [BitVec.getLsbD_twoPow, ← Bool.decide_and, decide_eq_decide]
    omega
  cases pressed with
  | true =>
    rw [latchKey, if_pos rfl, BitVec.getLsbD_or, hbit]
    by_cases hj : j.val = k <;> simp [hj]
  | false =>
    rw [latchKey, if_neg Bool.false_ne_true, BitVec.getLsbD_and, BitVec.getLsbD_not, hbit]
    by_cases hj : j.val = k <;> simp [hj]

theorem keySet_of_fault {k : Nat} {pressed : Bool} {s : State} (hk : k ≤ 15) (h : s.fault ≠ none) :
    keySet k pressed s = .next s := by
  obtain ⟨f, hf⟩ := Option.ne_none_iff_exists'.mp h
  simp [keySet, hf, Nat.lt_succ_of_le hk]

theorem keySet_of_safe {k : Nat} {pressed : Bool} {s : State} (hk : k ≤ 15) (h : s.fault = none) :
    keySet k pressed s = .next (s.setKeys (latchKey s.keys k pressed)) := by
  simp [keySet, h, Nat.lt_succ_of_le hk]

/-- Settles O52: an index in range sets its own bit of the latch. -/
theorem keySetChangesOneBit : Obligations.KeySetChangesOneBit := fun k pressed s =>
  ⟨fun hk => ⟨_, if_neg (Nat.not_lt.mpr hk)⟩, keySet_of_fault, fun hk hf =>
    ⟨_, keySet_of_safe hk hf, rfl, latchKey_getLsbD s.keys k pressed⟩⟩

/-! ### Load -/

theorem load_of_safe {bytes : List Byte} {s : State} (hlen : bytes.length ≤ 3584) (h : s.fault = none) :
    load bytes s = .next (s.setMem (s.mem.putBytes 512 bytes)) := by
  simp [load, h, Nat.not_lt.mpr hlen]

theorem perform_load_of_stepped {bytes : List Byte} {σ : Session} (h : σ.stepped = true) :
    Session.perform (.load bytes) σ = .refused .loadAfterStep := if_pos h

theorem perform_load_of_not_stepped {bytes : List Byte} {σ : Session} (h : σ.stepped = false) :
    Session.perform (.load bytes) σ = Session.lift false (load bytes σ.machine) := if_neg (by simp [h])

/-- A Load too long is refused, before or after a Step (48_host_interface.md R175). -/
theorem perform_load_of_too_long {bytes : List Byte} {σ : Session} (h : 3584 < bytes.length) :
    ∃ r, Session.perform (.load bytes) σ = .refused r := by
  cases hs : σ.stepped with
  | true => exact ⟨_, perform_load_of_stepped hs⟩
  | false =>
    have hl : load bytes σ.machine = .refused (.loadTooLong bytes.length) := if_pos h
    exact ⟨_, by rw [perform_load_of_not_stepped hs, hl]; rfl⟩

/-- Settles O53: an admitted Load is one write of the image, which fits below 4096. -/
theorem loadCopiesTheImage : Obligations.LoadCopiesTheImage := by
  refine fun bytes σ => ⟨?_, fun hlen hs hf => ?_⟩
  · rintro (h | h)
    · exact perform_load_of_too_long h
    · exact ⟨_, perform_load_of_stepped h⟩
  · refine ⟨σ.machine.setMem (σ.machine.mem.putBytes 512 bytes), ?_, rfl, fun j hj => ?_, fun a ha => ?_⟩
    · rw [perform_load_of_not_stepped hs, load_of_safe hlen hf]
      rfl
    · exact Memory.get_putBytes_inside _ 512 bytes hj (by omega)
    · exact Memory.get_putBytes_outside _ 512 bytes ha

/-! ### The reads -/

/-- Settles O55: each read is a field, and the bitmap's order is row-major. -/
theorem readsReturnTheState : Obligations.ReadsReturnTheState := fun s =>
  ⟨rfl, Display.bit_eq s.display, rfl, rfl⟩

end Sys2Proof.Machine

/-! PROOFS. The exceptions family (60_exceptions.md). An instruction that completes keeps the latch, so what `exec` answers holds
the instruction's own fault or none; the order of the Step's checks is already that of its three outcomes. -/

namespace Sys2Proof.Machine

/-! ### The fault a Step reports -/

/-- An instruction that completes leaves the latch as it was. -/
theorem completed_fault (i : Instr) (s : State) : (completed i s).fault = s.fault := by
  cases i with
  | ldVxK x =>
    rw [completed]
    cases s.firstKey <;> rfl
  | _ => rfl

/-- An instruction entered with a clear latch answers a next state that holds its own fault or none. -/
theorem exec_latches_executionFault (i : Instr) {s : State} (hs : s.fault = none) :
    ∃ t, exec i s = .next t ∧ t.fault = executionFault i s := by
  cases hx : executionFault i s with
  | none => exact ⟨_, exec_of_none hx, (completed_fault i s).trans hs⟩
  | some f => exact faults_of_executionFault hx

/-- Settles O11: the order is that of the Step's outcomes, and the instruction reached latches its own fault. -/
theorem stepReportsTheFirstFaultInOrder : Obligations.StepReportsTheFirstFaultInOrder := by
  intro s
  obtain ⟨hstop, hgo⟩ := stepFetchesDecodesExecutes s
  split
  · next f hf => exact ⟨s, hstop (by simp [hf]), hf⟩
  · next hf =>
    obtain ⟨hfetch, hword⟩ := hgo hf
    split
    · next hp => exact hfetch hp
    · next hp =>
      obtain ⟨hillegal, hlegal⟩ := hword (Nat.not_lt.mp hp) (s.mem.fetch16 s.pc.toNat) rfl
      split
      · next hd => exact hillegal hd
      · next i hd =>
        rw [hlegal i hd]
        exact exec_latches_executionFault i hf

/-! ### The faulted machine -/

theorem load_of_fault {s : State} (h : s.fault ≠ none) (bytes : List Byte) : ∃ r, load bytes s = .refused r := by
  obtain ⟨f, hf⟩ := Option.ne_none_iff_exists'.mp h
  by_cases hlen : 3584 < bytes.length
  · exact ⟨.loadTooLong bytes.length, if_pos hlen⟩
  · exact ⟨.loadFaulted, by simp [load, hf, hlen]⟩

/-- Settles O13: each operation but Reset looks at the latch first, the reads return fields, and Reset clears the latch. -/
theorem faultedMachineIsFrozenUntilReset : Obligations.FaultedMachineIsFrozenUntilReset := by
  intro s f hf
  have hs : s.fault ≠ none := by simp [hf]
  exact ⟨step_of_fault hs, timerTick_of_fault hs, fun k hk _ => keySet_of_fault (Nat.le_of_lt_succ hk) hs,
    load_of_fault hs, rfl, rfl, hf, rfl⟩

end Sys2Proof.Machine

/-! PROOFS. The reset and hazards family (70_reset_and_hazards.md), and the statements left over from the others. What Reset and
Load leave; the two directions of the opcode map, class by class; the placed instruction; the canonical memory; then what an
instruction that completes leaves of each register that is not a general one, and of memory. -/

namespace Sys2Proof.Machine

/-! ### Reset and launch -/

/-- Settles O2: Reset is a constant but for the model's counter, which R40 does not mention. -/
theorem resetGivesTheResetStateFromAnyState : Obligations.ResetGivesTheResetStateFromAnyState := by
  intro σ τ
  obtain ⟨hreset, -⟩ := resetStateHasTheStatedValues
  exact ⟨resetMachine σ.machine, resetMachine τ.machine, rfl, hreset, rfl, rfl, rfl⟩

/-- The word at the start of bytes written is that of the first two of them (20_memory.md R52). -/
theorem Memory.fetch16_putBytes (m : Memory) {a : Nat} (hi lo : Byte) {rest : List Byte}
    (hfit : a + (rest.length + 2) ≤ 4096) : (m.putBytes a (hi :: lo :: rest)).fetch16 a = wordOfBytes hi lo := by
  have hread {j : Nat} (hj : j < (hi :: lo :: rest).length) :
      (m.putBytes a (hi :: lo :: rest)).get (a + j) = (hi :: lo :: rest)[j] :=
    Memory.get_putBytes_inside _ _ _ hj hfit
  exact congrArg₂ wordOfBytes (hread (j := 0) (by simp)) (hread (j := 1) (by simp))

/-- Settles O54: the image fits from 512 on, and the fetch at 512 reads its first two bytes. -/
theorem launchBeginsWithTheFirstImageWord : Obligations.LaunchBeginsWithTheFirstImageWord := by
  intro b0 b1 rest hlen
  have hfetch : fetchWord (State.reset.setMem (Memory.putBytes [] 512 (b0 :: b1 :: rest))) = .ok (b0 ++ b1) :=
    (fetchWord_of_le (s := State.reset.setMem _) (show 512 ≤ 4094 by decide)).trans
      (congrArg _ (Memory.fetch16_putBytes [] b0 b1 (by omega)))
  exact ⟨_, load_of_safe hlen rfl, rfl, rfl, hfetch⟩

/-! ### Decode of encode -/

/-- Settles O5: the word decodes by `decodeWord_encode`, and the bytes stored are that word's. -/
theorem decodeOfEncodeIsTheInstruction : Obligations.DecodeOfEncodeIsTheInstruction := by
  refine fun i => ⟨decodeWord_encode i, fun rest => ?_⟩
  have hword : decodeWord (wordOfBytes (highByte (encode i)) (lowByte (encode i))) = some i := by
    rw [wordOfBytes_bytes, decodeWord_encode]
  simp [encodeBytes, decode, hword]

/-- Settles O4: the decoder run on the eight words. -/
theorem oneWordOfEachFormatDecodes : Obligations.OneWordOfEachFormatDecodes :=
  ⟨rfl, rfl, rfl, rfl, rfl, rfl, rfl, rfl⟩

/-! ### Encode of decode: a word is made of the fields its format names -/

section Fields

variable {w : Word} {op : Nibble} (h : nib1 w = op)
include h

theorem encodeA_of_nib1 : encodeA op (fieldNnn w) = w := by
  rw [← h, encodeA_fields]

theorem encodeI_of_nib1 : encodeI op (fieldX w) (fieldKk w) = w := by
  rw [← h, ← encodeS_eq, encodeS_fields]

theorem encodeS_of_nib1 {low : Byte} (hlow : (fieldKk w).toNat = low.toNat) : encodeS op (fieldX w) low = w := by
  rw [← h, ← BitVec.eq_of_toNat_eq hlow, encodeS_fields]

theorem encodeR_of_nib1 {low : Nibble} (hlow : (nib4 w).toNat = low.toNat) :
    encodeR op (fieldX w) (fieldY w) low = w := by
  rw [← h, ← BitVec.eq_of_toNat_eq hlow, encodeR_fields]

theorem encodeD_of_nib1 : encodeD op (fieldX w) (fieldY w) (fieldN w) = w :=
  encodeR_of_nib1 h rfl

end Fields

theorem encode_of_decodeClass0 {w : Word} {i : Instr} (hi : decodeClass0 w = some i) : encode i = w := by
  unfold decodeClass0 at hi
  split_ifs at hi with h0 h1 h2
  all_goals
    obtain rfl := Option.some.inj hi
    subst w
    rfl

/-- A shift's low byte is fixed whole (30_encoding.md R79). -/
theorem fieldKk_of_nib3_zero {w : Word} (h3 : nib3 w = 0) : (fieldKk w).toNat = (nib4 w).toNat := by
  have hhigh := nib3_toNat w
  have hlow := nib4_toNat w
  rw [h3] at hhigh
  change 0 = _ at hhigh
  omega

theorem encode_of_decodeClass8 {w : Word} {i : Instr} (h : nib1 w = 8) (hi : decodeClass8 w = some i) : encode i = w := by
  unfold decodeClass8 at hi
  split at hi
  case h_7 h4 | h_9 h4 =>
    split_ifs at hi with h3
    obtain rfl := Option.some.inj hi
    exact encodeS_of_nib1 h ((fieldKk_of_nib3_zero h3).trans h4)
  case h_10 => cases hi
  all_goals
    next h4 =>
      obtain rfl := Option.some.inj hi
      exact encodeR_of_nib1 h h4

theorem encode_of_decodeClassE {w : Word} {i : Instr} (h : nib1 w = 0xE) (hi : decodeClassE w = some i) : encode i = w := by
  unfold decodeClassE at hi
  split at hi
  case h_3 => cases hi
  all_goals
    next hlow =>
      obtain rfl := Option.some.inj hi
      exact encodeS_of_nib1 h hlow

theorem encode_of_decodeClassF {w : Word} {i : Instr} (h : nib1 w = 0xF) (hi : decodeClassF w = some i) : encode i = w := by
  unfold decodeClassF at hi
  split at hi
  case h_10 => cases hi
  all_goals
    next hlow =>
      obtain rfl := Option.some.inj hi
      exact encodeS_of_nib1 h hlow

theorem nib1_eq_of_toNat {w : Word} {n : Nat} (h : (nib1 w).toNat = n) : nib1 w = BitVec.ofNat 4 n := by
  rw [← h, BitVec.ofNat_toNat, BitVec.setWidth_eq]

/-- Settles O6: by opcode class, each field of the word is an operand of the instruction or fixed by its format. -/
theorem encodeOfDecodeIsTheWord : Obligations.EncodeOfDecodeIsTheWord := by
  intro w i hi
  unfold decodeWord at hi
  split at hi
  case h_1 h => exact encode_of_decodeClass0 hi
  case h_2 h | h_3 h | h_11 h | h_12 h =>
    obtain rfl := Option.some.inj hi
    exact encodeA_of_nib1 (nib1_eq_of_toNat h)
  case h_4 h | h_5 h | h_7 h | h_8 h | h_13 h =>
    obtain rfl := Option.some.inj hi
    exact encodeI_of_nib1 (nib1_eq_of_toNat h)
  case h_6 h | h_10 h =>
    split_ifs at hi with h4
    obtain rfl := Option.some.inj hi
    exact encodeR_of_nib1 (nib1_eq_of_toNat h) (congrArg BitVec.toNat h4)
  case h_9 h => exact encode_of_decodeClass8 (nib1_eq_of_toNat h) hi
  case h_14 h =>
    obtain rfl := Option.some.inj hi
    exact encodeD_of_nib1 (nib1_eq_of_toNat h)
  case h_15 h => exact encode_of_decodeClassE (nib1_eq_of_toNat h) hi
  case h_16 h => exact encode_of_decodeClassF (nib1_eq_of_toNat h) hi
  case h_17 => cases hi

/-! ### The illegal words -/

theorem decodeClass0_eq_none_iff (w : Word) : decodeClass0 w = none ↔ w ≠ 0x0000 ∧ w ≠ 0x00E0 ∧ w ≠ 0x00EE := by
  unfold decodeClass0
  split_ifs with h0 h1 h2 <;> simp_all

/-- In class 8 the low nibble decides, and for the two shifts `n3` as well (30_encoding.md R79). -/
theorem decodeClass8_eq_none_iff (w : Word) : decodeClass8 w = none ↔
    (nib4 w = 0x8 ∨ nib4 w = 0x9 ∨ nib4 w = 0xA ∨ nib4 w = 0xB ∨ nib4 w = 0xC ∨ nib4 w = 0xD ∨ nib4 w = 0xF) ∨
      (nib4 w = 0x6 ∨ nib4 w = 0xE) ∧ nib3 w ≠ 0 := by
  have hlt := (nib4 w).isLt
  unfold decodeClass8
  simp only [← BitVec.toNat_inj (x := nib4 w), BitVec.ofNat_eq_ofNat, BitVec.toNat_ofNat]
  split
  case h_7 h4 | h_9 h4 => simp [h4]
  case h_10 =>
    simp only [imp_false] at *
    exact iff_of_true trivial (.inl (by omega))
  all_goals
    next h4 => simp [h4]

theorem decodeClassE_eq_none_iff (w : Word) : decodeClassE w = none ↔ fieldKk w ≠ 0x9E ∧ fieldKk w ≠ 0xA1 := by
  unfold decodeClassE
  simp only [ne_eq, ← BitVec.toNat_inj]
  split <;> simp_all

theorem decodeClassF_eq_none_iff (w : Word) : decodeClassF w = none ↔
    fieldKk w ≠ 0x07 ∧ fieldKk w ≠ 0x0A ∧ fieldKk w ≠ 0x15 ∧ fieldKk w ≠ 0x18 ∧ fieldKk w ≠ 0x1E ∧ fieldKk w ≠ 0x29 ∧
      fieldKk w ≠ 0x33 ∧ fieldKk w ≠ 0x55 ∧ fieldKk w ≠ 0x65 := by
  unfold decodeClassF
  simp only [ne_eq, ← BitVec.toNat_inj]
  split <;> simp_all

/-- Settles O8: by opcode class; a class of one pattern is illegal nowhere, or where its low nibble is not 0. -/
theorem illegalWordsByClass : Obligations.IllegalWordsByClass := by
  intro w
  unfold decodeWord
  split
  case h_1 h => simp [nib1_eq_of_toNat h, decodeClass0_eq_none_iff]
  case h_6 h | h_10 h => simp [nib1_eq_of_toNat h]
  case h_9 h => simp [nib1_eq_of_toNat h, decodeClass8_eq_none_iff]
  case h_15 h => simp [nib1_eq_of_toNat h, decodeClassE_eq_none_iff]
  case h_16 h => simp [nib1_eq_of_toNat h, decodeClassF_eq_none_iff]
  case h_17 =>
    have hlt := (nib1 w).isLt
    simp only [imp_false] at *
    omega
  all_goals
    next h => simp [nib1_eq_of_toNat h]

/-! ### The placed instruction -/

theorem fetchAddress_toNat_le (s : State) : (fetchAddress s).toNat ≤ 4094 := by
  unfold fetchAddress
  split
  · next h => exact Nat.le_sub_of_add_le h
  · decide

/-- The bytes placed for a word are the word's own, high byte first (20_memory.md R52). -/
theorem tableBytes_toNat (w : Word) : tableBytes 16 w.toNat = [highByte w, lowByte w] := by
  have hw : BitVec.ofNat 16 (w.toNat % 2 ^ 16) = w := by
    rw [Nat.mod_eq_of_lt w.isLt, BitVec.ofNat_toNat, BitVec.setWidth_eq]
  rw [tableBytes, hw]

/-- The next fetch after a word has been placed reads that word. -/
theorem fetchWord_withFetchWord (s : State) (w : Word) : fetchWord (s.withFetchWord 16 w.toNat) = .ok w := by
  have hle := fetchAddress_toNat_le s
  have hmem : (s.withFetchWord 16 w.toNat).mem = s.mem.putBytes (fetchAddress s).toNat [highByte w, lowByte w] :=
    congrArg (s.mem.putBytes _) (tableBytes_toNat w)
  have hread : (s.withFetchWord 16 w.toNat).mem.fetch16 (fetchAddress s).toNat = w := by
    rw [hmem, Memory.fetch16_putBytes _ _ _ (by rw [List.length_nil]; omega), wordOfBytes_bytes]
  exact (fetchWord_of_le (s := s.withFetchWord 16 w.toNat) hle).trans (congrArg _ hread)

/-- Settles O15: the placed word is fetched, and decodes to its instruction. -/
theorem placedInstructionRunsNext : Obligations.PlacedInstructionRunsNext := fun s i =>
  step_of_fetchDecode rfl (fetchDecode_of_decodeWord_some (fetchWord_withFetchWord s (encode i)) (decodeWord_encode i))

/-! ### The canonical memory -/

theorem Memory.get_of_not_listed {m : Memory} {a : Nat} (h : ∀ c ∈ m, c.1 ≠ a) : m.get a = Memory.unlisted a := by
  induction m with
  | nil => rfl
  | cons c m ih =>
    rw [Memory.get, if_neg (h c List.mem_cons_self)]
    exact ih fun d hd => h d (List.mem_cons_of_mem c hd)

/-- Addresses rise, so a cell is listed once and a read finds it. -/
theorem Memory.get_of_mem {m : Memory} (hm : m.Pairwise (fun c d => c.1 < d.1)) {c : Host.Cell} (hc : c ∈ m) :
    m.get c.1 = c.2 := by
  induction m with
  | nil => cases hc
  | cons d m ih =>
    rw [List.pairwise_cons] at hm
    obtain ⟨hd, hm⟩ := hm
    rcases List.mem_cons.mp hc with rfl | hc
    · exact if_pos rfl
    · rw [Memory.get, if_neg (Nat.ne_of_lt (hd c hc))]
      exact ih hm hc

/-- A canonical memory lists exactly the bytes that differ from what an unlisted address reads as (log 9). -/
theorem Memory.mem_iff_get {m : Memory} (hm : m.wf) (c : Host.Cell) :
    c ∈ m ↔ c.1 < 4096 ∧ m.get c.1 = c.2 ∧ c.2 ≠ Memory.unlisted c.1 := by
  obtain ⟨hrise, hcells⟩ := hm
  constructor
  · intro hc
    obtain ⟨hlt, hne⟩ := hcells c hc
    exact ⟨hlt, Memory.get_of_mem hrise hc, hne⟩
  · rintro ⟨-, hget, hne⟩
    by_contra hc
    refine hne (hget.symm.trans (Memory.get_of_not_listed fun d hd hda => hc ?_))
    have hd2 : d.2 = c.2 := by rw [← Memory.get_of_mem hrise hd, hda, hget]
    rwa [← Prod.ext hda hd2]

/-- Settles O19: the two memories list the same cells, in the one rising order. -/
theorem canonicalMemoriesWithEqualBytesAreEqual : Obligations.CanonicalMemoriesWithEqualBytesAreEqual := by
  intro m n hm hn hget
  have hmem (c : Host.Cell) : c ∈ m ↔ c ∈ n := by
    rw [Memory.mem_iff_get hm, Memory.mem_iff_get hn]
    exact and_congr_right fun hlt => by rw [hget c.1 hlt]
  have hnodup {l : Memory} (hl : l.wf) : l.Nodup := hl.1.imp fun hlt he => absurd (he ▸ hlt) (Nat.lt_irrefl _)
  exact ((List.perm_ext_iff_of_nodup (hnodup hm) (hnodup hn)).mpr hmem).eq_of_pairwise
    (fun _ _ _ _ hab hba => absurd hba (Nat.lt_asymm hab)) hm.1 hn.1

/-! ### Faults, and CALL with RET -/

/-- Settles O12: what every instruction answers, and the latch it leaves. -/
theorem everyInstructionRaisesOnlyItsOwnFault : Obligations.EveryInstructionRaisesOnlyItsOwnFault :=
  fun i _ hs => exec_latches_executionFault i hs

/-- Settles O24: RET pops the entry CALL pushed; the entries below it are untouched by either. -/
theorem retUndoesCall : Obligations.RetUndoesCall := by
  intro nnn s t hsp hcall
  obtain ⟨-, hpush, -⟩ := callPushesOrOverflows nnn s
  obtain ⟨t', hcall', hframe, -, hcount, hentry⟩ := hpush hsp
  obtain rfl : t' = t := Host.Outcome.next.inj (hcall'.symm.trans hcall)
  obtain ⟨-, hret⟩ := retPopsOrUnderflows
  obtain ⟨hpop, -⟩ := hret t'
  obtain ⟨u, hu, hframe', hstack, hcount', hpc⟩ := hpop (by omega)
  refine ⟨u, hu, ?_, Fin.ext (by omega), ?_, fun k hk => ?_⟩
  · have htop := hentry ⟨s.sp.val, by omega⟩
    rw [if_pos rfl] at htop
    simpa [hpc, hcount] using htop
  · rw [OnlyPcAndStack, hframe', hframe]
  · rw [hstack, hentry k, if_neg (Nat.ne_of_lt hk)]

/-! ### Random -/

/-- Settles O33: RND has no fault, and completes as one register write after the draw is taken. -/
theorem rndWritesADrawAndedWithTheImmediate : Obligations.RndWritesADrawAndedWithTheImmediate := fun x kk s =>
  ⟨decodeWord_encode (.rnd x kk), completed (.rnd x kk) s, exec_of_none rfl, rfl,
    fun k => s.advanceDraws.getV_setV x k (Config.rnd s.draws &&& kk)⟩

/-! ### Memory -/

/-- Settles O39: the bytes of memory after an instruction that completes. -/
theorem memoryChangesOnlyWhereStored : Obligations.MemoryChangesOnlyWhereStored := by
  intro i s t h ht a
  obtain ⟨hx, rfl⟩ := completed_of_exec h ht
  exact completed_mem_get hx a

/-- No fault condition reads memory: a range is judged by its addresses (20_memory.md R59). -/
theorem executionFault_setMem (i : Instr) (s : State) (m : Memory) :
    executionFault i (s.setMem m) = executionFault i s := by
  cases i <;> rfl

/-- An instruction that is none of the four completes alike over any memory (43_index_memory.md R147). -/
theorem completed_setMem {i : Instr} (hi : ¬accessesMemory i) (s : State) (m : Memory) :
    completed i (s.setMem m) = (completed i s).setMem m := by
  cases i with
  | drw x y n => exact absurd (.inl ⟨x, y, n, rfl⟩) hi
  | ldB x => exact absurd (.inr (.inl ⟨x, rfl⟩)) hi
  | ldMemVx x => exact absurd (.inr (.inr (.inl ⟨x, rfl⟩))) hi
  | ldVxMem x => exact absurd (.inr (.inr (.inr ⟨x, rfl⟩))) hi
  | ldVxK x =>
    change s.firstKey.elim _ _ = (s.firstKey.elim _ _ : State).setMem m
    cases s.firstKey <;> rfl
  | _ => rfl

/-- Settles O40: neither the instruction's fault nor its completed state depends on memory. -/
theorem otherInstructionsNeverTouchMemory : Obligations.OtherInstructionsNeverTouchMemory := by
  intro i s t hi h ht m
  obtain ⟨hx, rfl⟩ := completed_of_exec h ht
  exact (exec_of_none ((executionFault_setMem i s m).trans hx)).trans (congrArg _ (completed_setMem hi s m))

/-! ### Start coordinates of a draw -/

theorem wrapColumn_add_congr {a b : Nat} (h : a % 64 = b % 64) (c : Nat) : wrapColumn (a + c) = wrapColumn (b + c) :=
  Fin.ext (Nat.ModEq.add_right c h)

theorem wrapRow_add_congr {a b : Nat} (h : a % 32 = b % 32) (r : Nat) : wrapRow (a + r) = wrapRow (b + r) :=
  Fin.ext (Nat.ModEq.add_right r h)

/-- Every cell of a sprite wraps on its own, so the start coordinates wrap too (44_display.md R153). -/
theorem Canvas.drawSprite_congr {vx vx' vy vy' : Nat} (hx : vx % 64 = vx' % 64) (hy : vy % 32 = vy' % 32) (c : Canvas)
    (m : Memory) (base n : Nat) : c.drawSprite m base vx vy n = c.drawSprite m base vx' vy' n := by
  simp only [Canvas.drawSprite_eq, wrapColumn_add_congr hx, wrapRow_add_congr hy]

/-- Settles O45: the two draws have one sprite and one range check. -/
theorem drawCoordinatesWrap : Obligations.DrawCoordinatesWrap := by
  intro x y n s s' t t' hv hx hy h ht h'
  obtain ⟨v, rfl⟩ : ∃ v, s' = { s with v := v } := ⟨_, hv⟩
  obtain ⟨hfault, rfl⟩ := completed_of_exec h ht
  have hsprite : State.sprite { s with v := v } x y n = s.sprite x y n :=
    (Canvas.drawSprite_congr hx hy (s.display, false) s.mem (s.ea 0) n.val).symm
  obtain rfl := Host.Outcome.next.inj (h'.symm.trans (exec_of_none (i := .drw x y n) hfault))
  refine ⟨?_, congrArg Prod.fst hsprite, ?_⟩
  · rw [completed_fault] at ht ⊢
    exact ht
  · rw [completed_drw_getV_vf, completed_drw_getV_vf, hsprite]

/-! ### The registers that are not general ones, each with the instructions that write it -/

section Owners

variable {i : Instr} {s : State}

/-- The key wait writes a register or `PC`, and nothing else (45_keypad_timers.md R163). -/
theorem completed_ldVxK_frame (x : Reg) (s : State) : completed (.ldVxK x) s =
    { s with v := (completed (.ldVxK x) s).v, pc := (completed (.ldVxK x) s).pc } := by
  rw [completed]
  cases s.firstKey <;> rfl

theorem owner_of_completed_i_ne (h : (completed i s).i ≠ s.i) :
    (∃ nnn, i = .ldI nnn) ∨ (∃ x, i = .addI x) ∨ ∃ x, i = .ldF x := by
  cases i with
  | ldI nnn => exact .inl ⟨nnn, rfl⟩
  | addI x => exact .inr (.inl ⟨x, rfl⟩)
  | ldF x => exact .inr (.inr ⟨x, rfl⟩)
  | ldVxK x => exact absurd (congrArg State.i (completed_ldVxK_frame x s)) h
  | _ => exact absurd rfl h

theorem owner_of_completed_stack_ne (h : (completed i s).stack ≠ s.stack) : ∃ nnn, i = .call nnn := by
  cases i with
  | call nnn => exact ⟨nnn, rfl⟩
  | ldVxK x => exact absurd (congrArg State.stack (completed_ldVxK_frame x s)) h
  | _ => exact absurd rfl h

theorem owner_of_completed_sp_ne (h : (completed i s).sp ≠ s.sp) : (∃ nnn, i = .call nnn) ∨ i = .ret := by
  cases i with
  | call nnn => exact .inl ⟨nnn, rfl⟩
  | ret => exact .inr rfl
  | ldVxK x => exact absurd (congrArg State.sp (completed_ldVxK_frame x s)) h
  | _ => exact absurd rfl h

theorem owner_of_completed_dt_ne (h : (completed i s).dt ≠ s.dt) : ∃ x, i = .ldDtVx x := by
  cases i with
  | ldDtVx x => exact ⟨x, rfl⟩
  | ldVxK x => exact absurd (congrArg State.dt (completed_ldVxK_frame x s)) h
  | _ => exact absurd rfl h

theorem owner_of_completed_st_ne (h : (completed i s).st ≠ s.st) : ∃ x, i = .ldStVx x := by
  cases i with
  | ldStVx x => exact ⟨x, rfl⟩
  | ldVxK x => exact absurd (congrArg State.st (completed_ldVxK_frame x s)) h
  | _ => exact absurd rfl h

theorem owner_of_completed_display_ne (h : (completed i s).display ≠ s.display) :
    i = .cls ∨ ∃ x y n, i = .drw x y n := by
  cases i with
  | cls => exact .inl rfl
  | drw x y n => exact .inr ⟨x, y, n, rfl⟩
  | ldVxK x => exact absurd (congrArg State.display (completed_ldVxK_frame x s)) h
  | _ => exact absurd rfl h

theorem completed_keys (i : Instr) (s : State) : (completed i s).keys = s.keys := by
  cases i with
  | ldVxK x => rw [completed_ldVxK_frame]
  | _ => rfl

theorem owner_of_completed_draws_ne (h : (completed i s).draws ≠ s.draws) : ∃ x kk, i = .rnd x kk := by
  cases i with
  | rnd x kk => exact ⟨x, kk, rfl⟩
  | ldVxK x => exact absurd (congrArg State.draws (completed_ldVxK_frame x s)) h
  | _ => exact absurd rfl h

end Owners

/-- Settles O49: the completed state differs from the state before only in what its instruction owns. -/
theorem specialRegistersChangeOnlyByTheirInstructions : Obligations.SpecialRegistersChangeOnlyByTheirInstructions := by
  intro i s t h ht
  obtain ⟨-, rfl⟩ := completed_of_exec h ht
  exact ⟨owner_of_completed_i_ne, owner_of_completed_stack_ne, owner_of_completed_sp_ne, owner_of_completed_dt_ne,
    owner_of_completed_st_ne, owner_of_completed_display_ne, completed_keys i s, owner_of_completed_draws_ne⟩

end Sys2Proof.Machine
